-- ==== Sys2Proof/Word.lean ====
section
/-! DEFINITION. Word.lean: the value types of the engine (00_scope.md R5, R8): unsigned bit vectors of stated widths and the
register files' shapes. -/

namespace Sys2Proof

/-- A byte of a buffer, `u8` (R8, R50). -/
abbrev Byte := BitVec 8

/-- A substitution value, `u4` (R8, R24). -/
abbrev Nibble := BitVec 4

/-- A key word, round key or block half, `u32` (R8). -/
abbrev Word := BitVec 32

/-- A block, `u64` (R8, R15). -/
abbrev Block := BitVec 64

/-- The register file KEY[0..7] (R22). -/
abbrev KeyWords := Vector Word 8

/-- The register file RK[0..31] (R23). -/
abbrev RoundKeys := Vector Word 32

/-- The register file SBOX[0..127] (R24). -/
abbrev SboxTable := Vector Nibble 128

end Sys2Proof
end

