-- ==== Sys2Proof/Machine/Operands.lean ====
section
/-! DEFINITION. Machine/Operands.lean: byte-sequence primitives (00_scope.md R11), chunking (R12), short-chunk placement
(20_memory.md R58) and the assembly of operands from a payload (30_encoding.md R86). -/

namespace Sys2Proof.Machine

/-- The unsigned number a byte sequence spells, first byte most significant (R11). -/
def beNat : List Byte → Nat
  | [] => 0
  | b :: bs => b.toNat * 256 ^ bs.length + beNat bs

/-- The `n` low bytes of a number, most significant first: the inverse of `beNat` on `n` bytes (R11). -/
def beBytes : Nat → Nat → List Byte
  | 0, _ => []
  | n + 1, v => BitVec.ofNat 8 (v / 256 ^ n) :: beBytes n v

/-- BE32 (R11). -/
def be32 (b : List Byte) : Word := BitVec.ofNat 32 (beNat b)

/-- BE64 (R11). -/
def be64 (b : List Byte) : Block := BitVec.ofNat 64 (beNat b)

/-- bytes4, the inverse of BE32 (R11). -/
def bytes4 (v : Word) : List Byte := beBytes 4 v.toNat

/-- bytes8, the inverse of BE64 (R11). -/
def bytes8 (v : Block) : List Byte := beBytes 8 v.toNat

/-- pad0: zero bytes up to 8 (R11). -/
def pad0 (c : List Byte) : List Byte := c ++ List.replicate (8 - c.length) 0

/-- pad80: one byte 0x80, then zero bytes up to 8 (R11). -/
def pad80 (c : List Byte) : List Byte := c ++ 0x80#8 :: List.replicate (7 - c.length) 0

/-- MemRead(off, n) on the payload DIN (R10). -/
def memRead (din : List Byte) (off n : Nat) : List Byte := (din.drop off).take n

/-- NCH = ceil(LEN / 8) (R12). -/
def chunkCount (len : Nat) : Nat := (len + 7) / 8

/-- n_i = min(8, LEN - 8i) (R12). -/
def chunkLength (len i : Nat) : Nat := min 8 (len - 8 * i)

/-- The chunks of a buffer, in ascending order: chunk(i) = MemRead(8i, n_i) (R12, R59). -/
def chunks (din : List Byte) : List (List Byte) :=
  (List.range (chunkCount din.length)).map fun i => memRead din (8 * i) (chunkLength din.length i)

/-- blockof(c) = BE64(pad0(c)): the data in the most significant bytes (R58). -/
def blockOf (c : List Byte) : Block := be64 (pad0 c)

/-- first(n, s) (R11). -/
def first (n : Nat) (s : List Byte) : List Byte := s.take n

/-- The upper half of a block (R7, R8). -/
def hi32 (x : Block) : Word := x.extractLsb' 32 32

/-- The lower half of a block (R7, R8). -/
def lo32 (x : Block) : Word := x.extractLsb' 0 32

/-- join(h, l) = (h << 32) | l (R8). -/
def join (h l : Word) : Block := h ++ l

/-- The key words of a 32-byte payload: K[j] = BE32(DIN[4j..4j+3]) (R54, R86). -/
def keyWordsOf (din : List Byte) : KeyWords :=
  Vector.ofFn fun j : Fin 8 => be32 (memRead din (4 * j.val) 4)

/-- The entries of a 128-byte payload: S[e] = DIN[e][3:0] (R86, D6). -/
def sboxEntriesOf (din : List Byte) : SboxTable :=
  Vector.ofFn fun e : Fin 128 => BitVec.ofNat 4 (beNat (memRead din e.val 1))

/-- The blocks of a payload: B[k] = BE64(DIN[8k..8k+7]), k in 0..LEN/8-1 (R86). -/
def ivBlocksOf (din : List Byte) : List Block :=
  (List.range (din.length / 8)).map fun k => be64 (memRead din (8 * k) 8)

/-- The payload that carries eight key words (R86, R94). -/
def keyPayload (key : KeyWords) : List Byte := key.toList.flatMap bytes4

/-- The payload that carries a table, one entry a byte (R86, R94). -/
def sboxPayload (table : SboxTable) : List Byte := table.toList.map fun n => n.setWidth 8

/-- The payload that carries a sequence of blocks (R86, R94). -/
def blocksPayload (blocks : List Block) : List Byte := blocks.flatMap bytes8

end Sys2Proof.Machine
end

