-- ==== Sys2Proof/Machine/Engine.lean ====
section
/-! DEFINITION. Machine/Engine.lean: the block engine (41_block_engine.md): T, G, bigG, encrypt, decrypt. -/

namespace Sys2Proof.Machine

/-- Nibble `i` of a word, nibble 0 the least significant (R7). -/
def lane (a : Word) (i : Fin 8) : Nibble := a.extractLsb' (4 * i.val) 4

/-- Lane `i` of T(a): SBOX[16i + nibble i of a] (R130). -/
def lookupLane (sbox : SboxTable) (a : Word) (i : Fin 8) : Nibble :=
  sbox[16 * i.val + (lane a i).toNat]'(by have h := i.isLt; have h' := (lane a i).isLt; omega)

/-- The nibble transform T (R130): every lane through its own sub-table, reassembled in place. -/
def T (sbox : SboxTable) (a : Word) : Word :=
  lookupLane sbox a 7 ++ lookupLane sbox a 6 ++ lookupLane sbox a 5 ++ lookupLane sbox a 4 ++
    lookupLane sbox a 3 ++ lookupLane sbox a 2 ++ lookupLane sbox a 1 ++ lookupLane sbox a 0

/-- The round transform G (R131): add modulo 2^32, substitute, rotate left by 11. -/
def G (sbox : SboxTable) (k a : Word) : Word := (T sbox (k + a)).rotateLeft 11

/-- The two working halves a1 (high) and a0 (low) of a block function in progress (R31). -/
structure Halves where
  a1 : Word
  a0 : Word
deriving DecidableEq, Repr

/-- The Feistel round bigG (R132): the new high half is the old low half. -/
def bigG (sbox : SboxTable) (k : Word) (h : Halves) : Halves := ⟨h.a0, G sbox k h.a0 ^^^ h.a1⟩

/-- Splitting a block into its halves (R135). -/
def splitBlock (b : Block) : Halves := ⟨hi32 b, lo32 b⟩

/-- The final join, which exchanges the halves (R135, C1). -/
def joinSwapped (h : Halves) : Block := join h.a0 h.a1

/-- The rounds over a sequence of round keys, in its order. -/
def rounds (sbox : SboxTable) (ks : List Word) (h : Halves) : Halves :=
  ks.foldl (fun h k => bigG sbox k h) h

/-- encrypt (R135): rounds 0 to 31. -/
def encrypt (rk : RoundKeys) (sbox : SboxTable) (b : Block) : Block :=
  joinSwapped (rounds sbox rk.toList (splitBlock b))

/-- decrypt (R136): rounds 31 down to 0. -/
def decrypt (rk : RoundKeys) (sbox : SboxTable) (b : Block) : Block :=
  joinSwapped (rounds sbox rk.toList.reverse (splitBlock b))

end Sys2Proof.Machine
end

