-- ==== Sys2Proof/Syntax.lean ====
section
/-! DEFINITION. Syntax.lean: the commands of the engine, one constructor per row of spec/opcode_table.json (30_encoding.md R92),
with their operands assembled (R86), and the spec's enumerations. -/

namespace Sys2Proof

/-- The source's CipherOperation (R83). -/
inductive CipherOp where
  | encrypt
  | decrypt
  | messageAuthentication
deriving DecidableEq, Repr

/-- The source's CipherMode (R84). -/
inductive CipherMode where
  | ecb
  | ctr
  | cfb
  | mac
deriving DecidableEq, Repr

/-- The opcodes 0x01..0x08 (R82). -/
inductive Opcode where
  | setkey
  | setkeyb
  | setsbox
  | selsbox
  | setiv
  | encblk
  | decblk
  | cipher
deriving DecidableEq, Repr

/-- The five error kinds a command can end in (60_exceptions.md R211). -/
inductive ErrorKind where
  /-- ERR_KEY_LENGTH (R212). -/
  | keyLength
  /-- ERR_INVALID_OP_MODE (R213). -/
  | invalidOpMode
  /-- ERR_IV_EMPTY (R217). -/
  | ivEmpty
  /-- ERR_ILLEGAL_COMMAND (R214). -/
  | illegalCommand
  /-- ERR_SBOX_INVALID (R219). -/
  | sboxInvalid
deriving DecidableEq, Repr

/-- A command with its operands. A buffer or byte string is the whole payload DIN. -/
inductive Instr where
  /-- SETKEY (R113): eight 32-bit words. -/
  | setkey (key : KeyWords)
  /-- SETKEYB (R114): a byte string of any length. -/
  | setkeyb (bytes : List Byte)
  /-- SETSBOX (R115): 128 values of 4 bits. -/
  | setsbox (table : SboxTable)
  /-- SELSBOX.A (R116). -/
  | selsboxA
  /-- SELSBOX.B (R116). -/
  | selsboxB
  /-- SETIV (R117): a sequence of blocks. -/
  | setiv (blocks : List Block)
  /-- ENCBLK (R137): one block. -/
  | encblk (block : Block)
  /-- DECBLK (R138): one block. -/
  | decblk (block : Block)
  /-- CIPHER.ENC.ECB (R151). -/
  | cipherEncEcb (buffer : List Byte)
  /-- CIPHER.DEC.ECB (R152). -/
  | cipherDecEcb (buffer : List Byte)
  /-- CIPHER.MAC.ECB (R199): an invalid pairing. -/
  | cipherMacEcb (buffer : List Byte)
  /-- CIPHER.ENC.CTR (R164). -/
  | cipherEncCtr (buffer : List Byte)
  /-- CIPHER.DEC.CTR (R165). -/
  | cipherDecCtr (buffer : List Byte)
  /-- CIPHER.MAC.CTR (R200): an invalid pairing. -/
  | cipherMacCtr (buffer : List Byte)
  /-- CIPHER.ENC.CFB (R174). -/
  | cipherEncCfb (buffer : List Byte)
  /-- CIPHER.DEC.CFB (R175). -/
  | cipherDecCfb (buffer : List Byte)
  /-- CIPHER.MAC.CFB (R201): an invalid pairing. -/
  | cipherMacCfb (buffer : List Byte)
  /-- CIPHER.ENC.MAC (R202): an invalid pairing. -/
  | cipherEncMac (buffer : List Byte)
  /-- CIPHER.DEC.MAC (R203): an invalid pairing. -/
  | cipherDecMac (buffer : List Byte)
  /-- CIPHER.MAC.MAC (R186). -/
  | cipherMacMac (buffer : List Byte)
deriving DecidableEq, Repr

end Sys2Proof
end

