-- ==== Sys2Proof/Config.lean ====
section
/-! DEFINITION. Config.lean: the open parameters of 00_scope.md R6 and the free values. A constant without a body is open: no
proof can see its value. The three parameters that are plain data are the fields of Params, which State holds, so that a step
shows every value of them. -/

namespace Sys2Proof

/-- What a MAC over an empty buffer answers (R187): a tag, or the one error kind that no rule keeps for other commands. R212,
R213, R217 and R219 keep ERR_KEY_LENGTH, ERR_INVALID_OP_MODE, ERR_IV_EMPTY and ERR_SBOX_INVALID for theirs. -/
inductive MacEmptyOutcome where
  | tag (t : Word)
  | illegalCommand
deriving DecidableEq, Repr, Inhabited

/-- SBOX_PRESET_B (R6, R116, D19): contents open. Log entry 6 (DESIGN CHOICE). -/
opaque Config.sboxPresetB : SboxTable

/-- ctr_prepare (R6, R160, D15), from a non-empty IV given as its first block and the rest: open. Log entry 7
(DESIGN CHOICE). -/
opaque Config.ctrPrepare : Block → List Block → Block

/-- The default instantiation of ctr_prepare (R160, GK3): the high half of the first block, then 32 zero bits. The machine
does not use it; tests that need a concrete keystream name it. -/
def Config.ctrPrepareDefault (first : Block) (_rest : List Block) : Block :=
  first &&& 0xFFFFFFFF00000000#64

/-- SBOX_VALIDATE of the instance that State.reset is (R6, R118, D20): open. Log entry 9 (DESIGN CHOICE). -/
opaque Config.sboxValidate : Bool

/-- MAC_EMPTY (R6, R187, D16), from the round keys and the table a MAC depends on: open. Log entry 12 (DESIGN CHOICE). -/
opaque Config.macEmpty : RoundKeys → SboxTable → MacEmptyOutcome

/-- KEY_RESET (R6, R38, D17): what KEY holds after the n-th reset: open. Log entry 3 (DESIGN CHOICE). -/
opaque Config.keyReset : Nat → KeyWords

/-- What the 64-bit OLEN field holds for a response of 2^64 bytes or more, which R80 has no code for. Log entry 13
(DESIGN CHOICE). -/
opaque Config.olenBeyond : Nat → BitVec 64

/-- The parameters of R6 that are plain data: configuration, fixed for the life of an instance (R21). -/
structure Params where
  /-- IV_MAX_BLOCKS (R6, D21): a number of blocks, or unbounded. -/
  ivMaxBlocks : Option Nat
  /-- LEN_MAX (R6, D21): a number below 2^64. -/
  lenMax : BitVec 64
  /-- SBOX_VALIDATE (R6, R118, D20). -/
  sboxValidate : Bool
deriving DecidableEq, Repr

/-- The parameters of the instance that State.reset is: the spec's defaults of IV_MAX_BLOCKS and LEN_MAX (D21), log entries 10
and 11, and an open SBOX_VALIDATE, log entry 9 (DESIGN CHOICE). -/
def Config.defaultParams : Params where
  ivMaxBlocks := none
  lenMax := 0xFFFFFFFFFFFFFFFF
  sboxValidate := Config.sboxValidate

/-- The largest byte count that the 64-bit LEN can state (R80), which no LEN_MAX exceeds (R6). -/
def Config.lenLimit : Nat := 2 ^ 64 - 1

end Sys2Proof
end

