-- ==== Sys2Proof/Machine/Flags.lean ====
section
/-! DEFINITION. Machine/Flags.lean: the status codes (60_exceptions.md R211), the one predicate commands test (10_state.md R29) and
the operation/mode matrix (46_mode_dispatch.md R196). The engine has no condition codes (R29). -/

namespace Sys2Proof.Machine

/-- The code OK (R211). -/
def statusOk : BitVec 8 := 0

/-- The code of an error kind (R211). -/
def errorCode : ErrorKind → BitVec 8
  | .keyLength => 1
  | .invalidOpMode => 2
  | .ivEmpty => 3
  | .illegalCommand => 4
  | .sboxInvalid => 5

/-- The codes the engine produces: 0 to 5; 6 to 255 are reserved (R211). -/
def statusDefined (code : BitVec 8) : Bool := decide (code.toNat ≤ 5)

/-- The predicate "the IV is empty", IVLEN = 0 (R29). -/
def ivIsEmpty (iv : List Block) : Bool := iv.isEmpty

/-- The compatibility matrix: seven pairings are valid, five are not (R196). -/
def pairingValid (op : CipherOp) (mode : CipherMode) : Bool :=
  match op, mode with
  | .encrypt, .mac => false
  | .decrypt, .mac => false
  | .encrypt, _ => true
  | .decrypt, _ => true
  | .messageAuthentication, .mac => true
  | .messageAuthentication, _ => false

/-- Sub-table `i` of a table: entries 16i to 16i+15 (R24). -/
def subTable (table : SboxTable) (i : Nat) : List Nibble := (table.toList.drop (16 * i)).take 16

/-- perm(S): in each sub-table the sixteen values are pairwise different (R115). -/
def isPermTable (table : SboxTable) : Bool :=
  (List.range 8).all fun i => decide (subTable table i).Nodup

end Sys2Proof.Machine
end

