-- ==== Sys2Proof/Machine/Presets.lean ====
section
/-! DEFINITION. Machine/Presets.lean: the contents of the default substitution box, 93_implementation_defined.md GK1.
PRESUMED: from general knowledge, not in the source (log entry 5). -/

namespace Sys2Proof.Machine

/-- The eight rows of GK1, row `i` the sub-table of nibble `i`. -/
def presetARows : List Nibble :=
  [0xC, 0x4, 0x6, 0x2, 0xA, 0x5, 0xB, 0x9, 0xE, 0x8, 0xD, 0x7, 0x0, 0x3, 0xF, 0x1] ++
  [0x6, 0x8, 0x2, 0x3, 0x9, 0xA, 0x5, 0xC, 0x1, 0xE, 0x4, 0x7, 0xB, 0xD, 0x0, 0xF] ++
  [0xB, 0x3, 0x5, 0x8, 0x2, 0xF, 0xA, 0xD, 0xE, 0x1, 0x7, 0x4, 0xC, 0x9, 0x6, 0x0] ++
  [0xC, 0x8, 0x2, 0x1, 0xD, 0x4, 0xF, 0x6, 0x7, 0x0, 0xA, 0x5, 0x3, 0xE, 0x9, 0xB] ++
  [0x7, 0xF, 0x5, 0xA, 0x8, 0x1, 0x6, 0xD, 0x0, 0x9, 0x3, 0xE, 0xB, 0x4, 0x2, 0xC] ++
  [0x5, 0xD, 0xF, 0x6, 0x9, 0x2, 0xC, 0xA, 0xB, 0x7, 0x8, 0x1, 0x4, 0x3, 0xE, 0x0] ++
  [0x8, 0xE, 0x2, 0x5, 0x6, 0x9, 0x1, 0xC, 0xF, 0x4, 0xB, 0x0, 0xD, 0xA, 0x3, 0x7] ++
  [0x1, 0x7, 0xE, 0xD, 0x0, 0x5, 0x8, 0x3, 0x4, 0xF, 0xA, 0x6, 0x9, 0xC, 0xB, 0x2]

/-- SBOX_PRESET_A (R6, R37): entry 16i + v is row i, column v. -/
def sboxPresetA : SboxTable := ⟨presetARows.toArray, rfl⟩

end Sys2Proof.Machine
end

