-- ==== Sys2Proof/Machine/Schedule.lean ====
section
/-! DEFINITION. Machine/Schedule.lean: the key schedule (40_key_schedule_and_config.md R110, R111). -/

namespace Sys2Proof.Machine

/-- kidx: which key word round key `p` is (R110). -/
def kidx (p : Fin 32) : Fin 8 :=
  if p.val < 24 then ⟨p.val % 8, by omega⟩ else ⟨(31 - p.val) % 8, by omega⟩

/-- The key schedule: RK[p] = KEY[kidx(p)] (R110). -/
def schedule (key : KeyWords) : RoundKeys :=
  Vector.ofFn fun p => key[kidx p]

end Sys2Proof.Machine
end

