-- ==== Sys2Proof/Machine/State.lean ====
section
/-! DEFINITION. Machine/State.lean: the state of one engine instance (10_state.md R20), the transactions its host presents
(30_encoding.md R80), and the reasons a step can stop. -/

namespace Sys2Proof.Machine

/-- A byte buffer (20_memory.md R50): cells with rising offsets. An offset that is not listed does not exist: it has no
value. -/
abbrev Memory := List Host.Cell

/-- A command as the host presents it: the triple (CMD, LEN, DIN) of R80. -/
structure Command where
  cmd : BitVec 32
  len : BitVec 64
  din : Memory
deriving DecidableEq, Repr

/-- What the host can do to the engine between commands: present a command (R80) or reset it (R240). -/
inductive Request where
  | command (c : Command)
  | reset
deriving DecidableEq, Repr

/-- The state: KEY, RK, SBOX, IV and STATUS (R20), the last response's OLEN and DOUT (R80), the instance's parameters
(R6), and the model's own fields `inbox` and `resets`. -/
structure State where
  /-- KEY[0..7] (R22). -/
  key : KeyWords
  /-- RK[0..31] (R23). -/
  rk : RoundKeys
  /-- SBOX[0..127] (R24). -/
  sbox : SboxTable
  /-- IV[0..IVLEN-1] (R26); IVLEN is its length. -/
  iv : List Block
  /-- STATUS (R28). -/
  status : BitVec 8
  /-- OLEN of the last response (R80). The model's own field, log entry 2. -/
  olen : BitVec 64
  /-- DOUT of the last response (R50). The model's own field, log entry 2. -/
  dout : Memory
  /-- What the host will present next, first to come first. The model's own field, log entry 1. -/
  inbox : List Request
  /-- The parameters of the instance (R6), which no command and no reset changes (R21). Configuration that the model holds in
  its own field, log entry 24. -/
  params : Params
  /-- How many reset events there were; it makes each KEY after reset a fresh free value. The model's own field, log
  entry 4. -/
  resets : Nat
deriving DecidableEq, Repr

/-- IVLEN (R26). -/
def State.ivLen (s : State) : Nat := s.iv.length

/-- Why a step stops with a fault. -/
inductive Fault where
  /-- Raised by `step` when DIN does not hold exactly the LEN bytes at offsets 0 to LEN-1: the host broke R80. Safe: the
  spec gives such a transaction no meaning. Log entry 14. -/
  | malformedTransaction
deriving DecidableEq, Repr

/-- Why a step is refused. -/
inductive Refusal where
  /-- An instruction without a meaning yet, by its mnemonic. Raised by `exec` only. Safe. -/
  | notModelled (mnemonic : String)
  /-- Raised by `step` for a payload longer than LEN_MAX (93_implementation_defined.md U9: "refuse"). Safe. Log entry 11. -/
  | payloadBeyondLenMax
deriving DecidableEq, Repr

/-- The engine after its reset number `n`, with `inbox` still to come (R37, R38, R240): preset A, no IV, STATUS OK, KEY
unspecified and RK its schedule, no response; `params` are the instance's. -/
def State.afterReset (params : Params) (n : Nat) (inbox : List Request) : State where
  key := Config.keyReset n
  rk := schedule (Config.keyReset n)
  sbox := sboxPresetA
  iv := []
  status := statusOk
  olen := 0
  dout := []
  inbox := inbox
  params := params
  resets := n

/-- An instance with given parameters right after reset, nothing presented yet. -/
def State.resetWith (params : Params) : State := State.afterReset params 0 []

/-- The machine right after reset, nothing presented yet. -/
def State.reset : State := State.resetWith Config.defaultParams

end Sys2Proof.Machine
end

