-- ==== Sys2Proof/Machine/Ops.lean ====
section
/-! DEFINITION. Machine/Ops.lean: the named operations over buffers and registers, the response of a command that succeeds, and
the one operation that ends a command with an error (60_exceptions.md R216). -/

namespace Sys2Proof.Machine

/-- The byte at an offset, none where the buffer has none (R50). -/
def Memory.readByte (m : Memory) (off : Nat) : Option Byte := m.lookup off

/-- The `n` bytes from an offset, none if one of them does not exist (R10). -/
def Memory.read (m : Memory) (off : Nat) : Nat → Option (List Byte)
  | 0 => some []
  | n + 1 => do
    let b ← m.readByte off
    let bs ← Memory.read m (off + 1) n
    return b :: bs

/-- Writing one byte, the offsets staying in rising order. -/
def Memory.writeByte : Memory → Nat → Byte → Memory
  | [], off, b => [(off, b)]
  | (o, x) :: m, off, b =>
    if off < o then (off, b) :: (o, x) :: m
    else if off = o then (off, b) :: m
    else (o, x) :: Memory.writeByte m off b

/-- MemWrite(off, n, v) for a byte sequence v (R10). -/
def Memory.write : Memory → Nat → List Byte → Memory
  | m, _, [] => m
  | m, off, b :: bs => Memory.write (m.writeByte off b) (off + 1) bs

/-- The canonical form: offsets strictly rising. No byte value is left unlisted, since an unlisted offset has none. -/
def Memory.wf : Memory → Bool
  | [] => true
  | [_] => true
  | (o, _) :: (o', x') :: m => decide (o < o') && Memory.wf ((o', x') :: m)

/-- The buffer whose bytes are `bs` from offset 0 (R50). -/
def Memory.ofBytes (bs : List Byte) : Memory := Memory.write [] 0 bs

/-- The bytes of a buffer in the order of their offsets. -/
def Memory.bytes (m : Memory) : List Byte := m.map Prod.snd

/-- The transaction with command word `cmd` and payload `bs`; LEN is its byte count (R80). -/
def Command.ofBytes (cmd : BitVec 32) (bs : List Byte) : Command :=
  ⟨cmd, BitVec.ofNat 64 bs.length, Memory.ofBytes bs⟩

/-- The payload of a transaction whose DIN is exactly the LEN bytes at 0 to LEN-1 (R80), none otherwise. -/
def Command.payload? (c : Command) : Option (List Byte) :=
  if c.din.length = c.len.toNat then c.din.read 0 c.len.toNat else none

/-- The OLEN field for a response of `n` bytes (R80); a count that 64 bits cannot state leaves it open (log entry 13). -/
def olenOf (n : Nat) : BitVec 64 :=
  if n < 2 ^ 64 then BitVec.ofNat 64 n else Config.olenBeyond n

/-- The end of a command that succeeds with output `out` (R13, R87): STATUS OK, and the response. -/
def State.succeed (s : State) (out : List Byte) : State :=
  { s with status := statusOk, olen := olenOf out.length, dout := Memory.ofBytes out }

/-- `raise Err(code)` (R216): STATUS is the code, OLEN is 0, DOUT is empty, and no other register is written. -/
def State.raise (s : State) (e : ErrorKind) : State :=
  { s with status := errorCode e, olen := 0, dout := [] }

/-- Writing KEY, and RK in the same atomic step (R112). -/
def State.writeKey (s : State) (key : KeyWords) : State :=
  { s with key := key, rk := schedule key }

/-- Writing the whole table (R24). -/
def State.writeSbox (s : State) (table : SboxTable) : State := { s with sbox := table }

/-- Replacing the whole IV, and IVLEN with it (R26). -/
def State.writeIv (s : State) (blocks : List Block) : State := { s with iv := blocks }

/-- encrypt under the engine's RK and SBOX (R140). -/
def State.encryptBlock (s : State) (b : Block) : Block := encrypt s.rk s.sbox b

/-- decrypt under the engine's RK and SBOX (R140). -/
def State.decryptBlock (s : State) (b : Block) : Block := decrypt s.rk s.sbox b

/-- What every command answers: the machine goes on with the state the command leaves (R13, R62, R225). -/
def done (s : State) : Host.Outcome State Fault Refusal := .next s

end Sys2Proof.Machine
end

