-- ==== Sys2Proof/Machine/BlockCommands.lean ====
section
/-! DEFINITION. Machine/BlockCommands.lean: ENCBLK and DECBLK (41_block_engine.md R137, R138). -/

namespace Sys2Proof.Machine

/-- ENCBLK (R137). -/
def execEncblk (block : Block) (s : State) : Host.Outcome State Fault Refusal :=
  done (s.succeed (bytes8 (s.encryptBlock block)))

/-- DECBLK (R138). -/
def execDecblk (block : Block) (s : State) : Host.Outcome State Fault Refusal :=
  done (s.succeed (bytes8 (s.decryptBlock block)))

end Sys2Proof.Machine
end

