-- ==== Sys2Proof/Machine/CfbMode.lean ====
section
/-! DEFINITION. Machine/CfbMode.lean: the CFB controller and its two commands (44_mode_cfb.md). -/

namespace Sys2Proof.Machine

/-- The shift register REG (R170): it is never empty, so its front is always there. -/
structure ShiftReg where
  front : Block
  rest : List Block
deriving DecidableEq, Repr

/-- Pop the front and push a block at the back (R170, R172). -/
def ShiftReg.popPush (reg : ShiftReg) (b : Block) : ShiftReg :=
  match reg.rest with
  | [] => ⟨b, []⟩
  | f :: fs => ⟨f, fs ++ [b]⟩

/-- The CFB controller over the chunks still to come (R173): the block pushed is the ciphertext block. -/
def cfbChunks (enc : Block → Block) (op : CipherOp) : ShiftReg → List (List Byte) → List Byte
  | _, [] => []
  | reg, c :: cs =>
    let x := blockOf c
    let v := enc reg.front ^^^ x
    first c.length (bytes8 v) ++ cfbChunks enc op (reg.popPush (if op = .encrypt then v else x)) cs

/-- The CFB controller for a non-empty IV (R173). -/
def cfb (enc : Block → Block) (op : CipherOp) (reg : ShiftReg) (din : List Byte) : List Byte :=
  cfbChunks enc op reg (chunks din)

/-- A CFB command (R173): an empty IV is ERR_IV_EMPTY (R171); REG starts as a copy of IV (R170). -/
def cfbCommand (op : CipherOp) (buffer : List Byte) (s : State) : State :=
  match s.iv with
  | [] => s.raise .ivEmpty
  | b :: bs => s.succeed (cfb s.encryptBlock op ⟨b, bs⟩ buffer)

/-- CIPHER.ENC.CFB (R174). -/
def execCipherEncCfb (buffer : List Byte) (s : State) : Host.Outcome State Fault Refusal :=
  done (cfbCommand .encrypt buffer s)

/-- CIPHER.DEC.CFB (R175). -/
def execCipherDecCfb (buffer : List Byte) (s : State) : Host.Outcome State Fault Refusal :=
  done (cfbCommand .decrypt buffer s)

end Sys2Proof.Machine
end

