-- ==== Sys2Proof/Machine/ConfigCommands.lean ====
section
/-! DEFINITION. Machine/ConfigCommands.lean: SETKEY, SETKEYB, SETSBOX, SELSBOX.A, SELSBOX.B, SETIV
(40_key_schedule_and_config.md). -/

namespace Sys2Proof.Machine

/-- SETKEY (R113). -/
def execSetkey (key : KeyWords) (s : State) : Host.Outcome State Fault Refusal :=
  done ((s.writeKey key).succeed [])

/-- SETKEYB (R114): any length but 32 is ERR_KEY_LENGTH, before any register is written. -/
def execSetkeyb (bytes : List Byte) (s : State) : Host.Outcome State Fault Refusal :=
  done (if bytes.length = 32 then (s.writeKey (keyWordsOf bytes)).succeed [] else s.raise .keyLength)

/-- SETSBOX under a value of SBOX_VALIDATE (R115, R118). -/
def setSbox (validate : Bool) (table : SboxTable) (s : State) : State :=
  if !isPermTable table && validate then s.raise .sboxInvalid else (s.writeSbox table).succeed []

/-- SETSBOX (R115), under the instance's SBOX_VALIDATE (R118). -/
def execSetsbox (table : SboxTable) (s : State) : Host.Outcome State Fault Refusal :=
  done (setSbox s.params.sboxValidate table s)

/-- SELSBOX.A (R116). -/
def execSelsboxA (s : State) : Host.Outcome State Fault Refusal :=
  done ((s.writeSbox sboxPresetA).succeed [])

/-- SELSBOX.B (R116); the preset's contents are open (log entry 6). -/
def execSelsboxB (s : State) : Host.Outcome State Fault Refusal :=
  done ((s.writeSbox Config.sboxPresetB).succeed [])

/-- Whether `n` blocks fit an IV register of the given depth (R117, D21). -/
def ivFits (depth : Option Nat) (n : Nat) : Bool :=
  match depth with
  | none => true
  | some m => decide (n ≤ m)

/-- SETIV under a value of IV_MAX_BLOCKS (R117). -/
def setIv (depth : Option Nat) (blocks : List Block) (s : State) : State :=
  if ivFits depth blocks.length then (s.writeIv blocks).succeed [] else s.raise .illegalCommand

/-- SETIV (R117), under the instance's IV_MAX_BLOCKS. -/
def execSetiv (blocks : List Block) (s : State) : Host.Outcome State Fault Refusal :=
  done (setIv s.params.ivMaxBlocks blocks s)

end Sys2Proof.Machine
end

