-- ==== Sys2Proof/Machine/CtrMode.lean ====
section
/-! DEFINITION. Machine/CtrMode.lean: the CTR controller and its two commands (43_mode_ctr.md). -/

namespace Sys2Proof.Machine

/-- The keystream block of chunk `i`: encrypt(add64(SEED, i)) (R162). -/
def ctrKeystream (enc : Block → Block) (seed : Block) (i : Nat) : Block := enc (seed + BitVec.ofNat 64 i)

/-- The CTR controller over the chunks from index `i` on (R163): each output is cut to its chunk's length. -/
def ctrChunks (enc : Block → Block) (seed : Block) : Nat → List (List Byte) → List Byte
  | _, [] => []
  | i, c :: cs => first c.length (bytes8 (ctrKeystream enc seed i ^^^ blockOf c)) ++ ctrChunks enc seed (i + 1) cs

/-- The CTR controller after the seed is known (R163). -/
def ctr (enc : Block → Block) (seed : Block) (din : List Byte) : List Byte :=
  ctrChunks enc seed 0 (chunks din)

/-- A CTR command, the same for both operations (R163, R165): an empty IV is ERR_IV_EMPTY (R161). -/
def ctrCommand (buffer : List Byte) (s : State) : State :=
  match s.iv with
  | [] => s.raise .ivEmpty
  | b :: bs => s.succeed (ctr s.encryptBlock (Config.ctrPrepare b bs) buffer)

/-- CIPHER.ENC.CTR (R164). -/
def execCipherEncCtr (buffer : List Byte) (s : State) : Host.Outcome State Fault Refusal :=
  done (ctrCommand buffer s)

/-- CIPHER.DEC.CTR (R165). -/
def execCipherDecCtr (buffer : List Byte) (s : State) : Host.Outcome State Fault Refusal :=
  done (ctrCommand buffer s)

end Sys2Proof.Machine
end

