-- ==== Sys2Proof/Machine/EcbMode.lean ====
section
/-! DEFINITION. Machine/EcbMode.lean: the ECB controller and its two commands (42_mode_ecb.md). -/

namespace Sys2Proof.Machine

/-- The ECB controller for a block function (R150): every chunk padded, transformed and written as 8 bytes. -/
def ecb (f : Block → Block) (din : List Byte) : List Byte :=
  (chunks din).flatMap fun c => bytes8 (f (blockOf c))

/-- CIPHER.ENC.ECB (R151). -/
def execCipherEncEcb (buffer : List Byte) (s : State) : Host.Outcome State Fault Refusal :=
  done (s.succeed (ecb s.encryptBlock buffer))

/-- CIPHER.DEC.ECB (R152). -/
def execCipherDecEcb (buffer : List Byte) (s : State) : Host.Outcome State Fault Refusal :=
  done (s.succeed (ecb s.decryptBlock buffer))

end Sys2Proof.Machine
end

