-- ==== Sys2Proof/Machine/InvalidPairings.lean ====
section
/-! DEFINITION. Machine/InvalidPairings.lean: the five pairings the mode dispatch rejects (46_mode_dispatch.md R197, R199 to R203):
the buffer is ignored. -/

namespace Sys2Proof.Machine

/-- CIPHER.MAC.ECB (R199). -/
def execCipherMacEcb (_buffer : List Byte) (s : State) : Host.Outcome State Fault Refusal :=
  done (s.raise .invalidOpMode)

/-- CIPHER.MAC.CTR (R200). -/
def execCipherMacCtr (_buffer : List Byte) (s : State) : Host.Outcome State Fault Refusal :=
  done (s.raise .invalidOpMode)

/-- CIPHER.MAC.CFB (R201). -/
def execCipherMacCfb (_buffer : List Byte) (s : State) : Host.Outcome State Fault Refusal :=
  done (s.raise .invalidOpMode)

/-- CIPHER.ENC.MAC (R202). -/
def execCipherEncMac (_buffer : List Byte) (s : State) : Host.Outcome State Fault Refusal :=
  done (s.raise .invalidOpMode)

/-- CIPHER.DEC.MAC (R203). -/
def execCipherDecMac (_buffer : List Byte) (s : State) : Host.Outcome State Fault Refusal :=
  done (s.raise .invalidOpMode)

end Sys2Proof.Machine
end

