-- ==== Sys2Proof/Machine/MacMode.lean ====
section
/-! DEFINITION. Machine/MacMode.lean: the MAC controller and its command (45_mode_mac.md). -/

namespace Sys2Proof.Machine

/-- The doubling dbl (R181): shift left by one, and the constant 0x1B if bit 63 was set. -/
def dbl (x : Block) : Block := if x.getLsbD 63 then (x <<< 1) ^^^ 0x1B#64 else x <<< 1

/-- The subkey KN for a message of `len` bytes (R182, R183). -/
def macSubkey (enc : Block → Block) (len : Nat) : Block :=
  let k1 := dbl (enc 0)
  let k2 := dbl k1
  if len % 8 = 0 then k1 else k2

/-- The block L of the last chunk (R184): a short one is padded with 0x80 and zeros. -/
def macLastBlock (c : List Byte) : Block := if c.length = 8 then be64 c else be64 (pad80 c)

/-- The chaining (R184) from feedback `fb` over chunk `c` and the chunks after it. -/
def macChain (enc : Block → Block) (kn : Block) : Block → List Byte → List (List Byte) → Block
  | fb, c, [] => enc (macLastBlock c ^^^ fb ^^^ kn)
  | fb, c, c' :: cs => macChain enc kn (enc (be64 c ^^^ fb)) c' cs

/-- The 4 bytes of the tag, the high half of the final feedback (R185). -/
def macTag (fb : Block) : List Byte := bytes4 (hi32 fb)

/-- The open outcome of a MAC over no chunk (R187). -/
def macEmptyResponse (o : MacEmptyOutcome) (s : State) : State :=
  match o with
  | .tag t => s.succeed (bytes4 t)
  | .illegalCommand => s.raise .illegalCommand

/-- CIPHER.MAC.MAC (R186); LEN = 0 takes the open outcome (R187, log entry 12). -/
def macCommand (buffer : List Byte) (s : State) : State :=
  match chunks buffer with
  | [] => macEmptyResponse (Config.macEmpty s.rk s.sbox) s
  | c :: cs => s.succeed (macTag (macChain s.encryptBlock (macSubkey s.encryptBlock buffer.length) 0 c cs))

/-- CIPHER.MAC.MAC (R186). -/
def execCipherMacMac (buffer : List Byte) (s : State) : Host.Outcome State Fault Refusal :=
  done (macCommand buffer s)

end Sys2Proof.Machine
end

