-- ==== Sys2Proof/Machine/Dispatch.lean ====
section
/-! DEFINITION. Machine/Dispatch.lean: one arm per command (30_encoding.md R92), each a call of its meaning. -/

namespace Sys2Proof.Machine

/-- What a command does to the engine. -/
def exec (i : Instr) (s : State) : Host.Outcome State Fault Refusal :=
  match i with
  | .setkey key => Sys2Proof.Machine.execSetkey key s
  | .setkeyb bytes => Sys2Proof.Machine.execSetkeyb bytes s
  | .setsbox table => Sys2Proof.Machine.execSetsbox table s
  | .selsboxA => Sys2Proof.Machine.execSelsboxA s
  | .selsboxB => Sys2Proof.Machine.execSelsboxB s
  | .setiv blocks => Sys2Proof.Machine.execSetiv blocks s
  | .encblk block => Sys2Proof.Machine.execEncblk block s
  | .decblk block => Sys2Proof.Machine.execDecblk block s
  | .cipherEncEcb buffer => Sys2Proof.Machine.execCipherEncEcb buffer s
  | .cipherDecEcb buffer => Sys2Proof.Machine.execCipherDecEcb buffer s
  | .cipherMacEcb buffer => Sys2Proof.Machine.execCipherMacEcb buffer s
  | .cipherEncCtr buffer => Sys2Proof.Machine.execCipherEncCtr buffer s
  | .cipherDecCtr buffer => Sys2Proof.Machine.execCipherDecCtr buffer s
  | .cipherMacCtr buffer => Sys2Proof.Machine.execCipherMacCtr buffer s
  | .cipherEncCfb buffer => Sys2Proof.Machine.execCipherEncCfb buffer s
  | .cipherDecCfb buffer => Sys2Proof.Machine.execCipherDecCfb buffer s
  | .cipherMacCfb buffer => Sys2Proof.Machine.execCipherMacCfb buffer s
  | .cipherEncMac buffer => Sys2Proof.Machine.execCipherEncMac buffer s
  | .cipherDecMac buffer => Sys2Proof.Machine.execCipherDecMac buffer s
  | .cipherMacMac buffer => Sys2Proof.Machine.execCipherMacMac buffer s

end Sys2Proof.Machine
end

