-- ==== Sys2Proof/WellFormed.lean ====
section
/-! DEFINITION. WellFormed.lean: the commands that a transaction can carry: the 64-bit LEN can state the payload's byte count
(30_encoding.md R80, R86). Whether it is within LEN_MAX (00_scope.md R6) is a matter of the instance, `Instr.fits`. -/

namespace Sys2Proof

/-- LEN of the transaction that carries the command (R86). -/
def Instr.payloadLength : Instr → Nat
  | .setkey _ => 32
  | .setkeyb bytes => bytes.length
  | .setsbox _ => 128
  | .selsboxA => 0
  | .selsboxB => 0
  | .setiv blocks => 8 * blocks.length
  | .encblk _ => 8
  | .decblk _ => 8
  | .cipherEncEcb buffer => buffer.length
  | .cipherDecEcb buffer => buffer.length
  | .cipherMacEcb buffer => buffer.length
  | .cipherEncCtr buffer => buffer.length
  | .cipherDecCtr buffer => buffer.length
  | .cipherMacCtr buffer => buffer.length
  | .cipherEncCfb buffer => buffer.length
  | .cipherDecCfb buffer => buffer.length
  | .cipherMacCfb buffer => buffer.length
  | .cipherEncMac buffer => buffer.length
  | .cipherDecMac buffer => buffer.length
  | .cipherMacMac buffer => buffer.length

/-- The payload fits a capacity of `lenMax` bytes. -/
def Instr.fits (lenMax : Nat) (i : Instr) : Bool :=
  decide (i.payloadLength ≤ lenMax)

/-- The 64-bit LEN can state the payload's length. -/
def Instr.wellFormed (i : Instr) : Bool :=
  i.fits Config.lenLimit

end Sys2Proof
end

