-- ==== Sys2Proof/Decode.lean ====
section
/-! DEFINITION. Decode.lean: from a command word and payload to a command (30_encoding.md R81 to R92), total, rejecting by name;
then the encoder, and the pseudo-commands of R95. -/

namespace Sys2Proof

open Sys2Proof.Machine

/-- The check of R88 that a malformed command fails first. -/
inductive Illegal where
  /-- Check (1): CMD[31:13] is not 0. -/
  | reservedBits
  /-- Check (2): opc is not in 0x01..0x08. -/
  | unknownOpcode
  /-- Check (3): op or mode is set off CIPHER, or sel off SELSBOX. -/
  | strayField
  /-- Check (4): op = 3 on CIPHER. -/
  | reservedOp
  /-- Check (5): LEN is not the required one. -/
  | payloadLength
deriving DecidableEq, Repr

/-- What the decoder answers: a command, or the reason it is illegal. -/
inductive Decoded where
  | instr (i : Instr)
  | illegal (why : Illegal)
deriving DecidableEq, Repr

/-- CMD[7:0] (R81). -/
def fieldOpc (cmd : BitVec 32) : BitVec 8 := cmd.extractLsb' 0 8

/-- CMD[9:8] (R81). -/
def fieldOp (cmd : BitVec 32) : BitVec 2 := cmd.extractLsb' 8 2

/-- CMD[11:10] (R81). -/
def fieldMode (cmd : BitVec 32) : BitVec 2 := cmd.extractLsb' 10 2

/-- CMD[12] (R81). -/
def fieldSel (cmd : BitVec 32) : BitVec 1 := cmd.extractLsb' 12 1

/-- CMD[31:13] (R81). -/
def fieldReserved (cmd : BitVec 32) : BitVec 19 := cmd.extractLsb' 13 19

/-- CMD from its four fields, the reserved bits zero (R81). -/
def commandWord (opc : BitVec 8) (op mode : BitVec 2) (sel : BitVec 1) : BitVec 32 :=
  BitVec.ofNat 32 (opc.toNat + 256 * op.toNat + 1024 * mode.toNat + 4096 * sel.toNat)

/-- The opcode table (R82); every other value is reserved (R89). -/
def Opcode.ofBits (opc : BitVec 8) : Option Opcode :=
  if opc = 0x01#8 then some .setkey
  else if opc = 0x02#8 then some .setkeyb
  else if opc = 0x03#8 then some .setsbox
  else if opc = 0x04#8 then some .selsbox
  else if opc = 0x05#8 then some .setiv
  else if opc = 0x06#8 then some .encblk
  else if opc = 0x07#8 then some .decblk
  else if opc = 0x08#8 then some .cipher
  else none

/-- The op field (R83); 3 is reserved. -/
def CipherOp.ofBits (op : BitVec 2) : Option CipherOp :=
  if op = 0#2 then some .encrypt
  else if op = 1#2 then some .decrypt
  else if op = 2#2 then some .messageAuthentication
  else none

/-- The mode field (R84): all four values are used. -/
def CipherMode.ofBits (mode : BitVec 2) : CipherMode :=
  if mode = 0#2 then .ecb
  else if mode = 1#2 then .ctr
  else if mode = 2#2 then .cfb
  else .mac

/-- The CIPHER row of an operation and a mode, the invalid pairings among them (R90, R92). -/
def cipherInstr (op : CipherOp) (mode : CipherMode) (buffer : List Byte) : Instr :=
  match op, mode with
  | .encrypt, .ecb => .cipherEncEcb buffer
  | .encrypt, .ctr => .cipherEncCtr buffer
  | .encrypt, .cfb => .cipherEncCfb buffer
  | .encrypt, .mac => .cipherEncMac buffer
  | .decrypt, .ecb => .cipherDecEcb buffer
  | .decrypt, .ctr => .cipherDecCtr buffer
  | .decrypt, .cfb => .cipherDecCfb buffer
  | .decrypt, .mac => .cipherDecMac buffer
  | .messageAuthentication, .ecb => .cipherMacEcb buffer
  | .messageAuthentication, .ctr => .cipherMacCtr buffer
  | .messageAuthentication, .cfb => .cipherMacCfb buffer
  | .messageAuthentication, .mac => .cipherMacMac buffer

/-- Whether check (3) of R88 fails. -/
def strayField (opc : Opcode) (cmd : BitVec 32) : Bool :=
  (opc != .cipher && (fieldOp cmd != 0 || fieldMode cmd != 0)) || (opc != .selsbox && fieldSel cmd != 0)

/-- The LEN check of R86; SETKEYB checks its own length and CIPHER takes any. -/
def lengthAllowed (opc : Opcode) (len : Nat) : Bool :=
  match opc with
  | .setkey => len == 32
  | .setkeyb => true
  | .setsbox => len == 128
  | .selsbox => len == 0
  | .setiv => len % 8 == 0
  | .encblk => len == 8
  | .decblk => len == 8
  | .cipher => true

/-- The command of a configuration or block opcode, its operands assembled (R86). -/
def assemble (opc : Opcode) (cmd : BitVec 32) (din : List Byte) : Decoded :=
  match opc with
  | .setkey => .instr (.setkey (keyWordsOf din))
  | .setkeyb => .instr (.setkeyb din)
  | .setsbox => .instr (.setsbox (sboxEntriesOf din))
  | .selsbox => .instr (if fieldSel cmd = 0 then .selsboxA else .selsboxB)
  | .setiv => .instr (.setiv (ivBlocksOf din))
  | .encblk => .instr (.encblk (be64 din))
  | .decblk => .instr (.decblk (be64 din))
  | .cipher =>
    match CipherOp.ofBits (fieldOp cmd) with
    | none => .illegal .reservedOp
    | some op => .instr (cipherInstr op (CipherMode.ofBits (fieldMode cmd)) din)

/-- The decoder: the five checks of R88 in their order, then the command. LEN is the number of payload bytes (R80). -/
def decode (cmd : BitVec 32) (din : List Byte) : Decoded :=
  if fieldReserved cmd ≠ 0 then .illegal .reservedBits
  else
    match Opcode.ofBits (fieldOpc cmd) with
    | none => .illegal .unknownOpcode
    | some opc =>
      if strayField opc cmd then .illegal .strayField
      else if lengthAllowed opc din.length then assemble opc cmd din
      else .illegal .payloadLength

/-- The command word of a command, from the fields of its row (R92). -/
def Instr.word : Instr → BitVec 32
  | .setkey _ => commandWord 0x01 0 0 0
  | .setkeyb _ => commandWord 0x02 0 0 0
  | .setsbox _ => commandWord 0x03 0 0 0
  | .selsboxA => commandWord 0x04 0 0 0
  | .selsboxB => commandWord 0x04 0 0 1
  | .setiv _ => commandWord 0x05 0 0 0
  | .encblk _ => commandWord 0x06 0 0 0
  | .decblk _ => commandWord 0x07 0 0 0
  | .cipherEncEcb _ => commandWord 0x08 0 0 0
  | .cipherDecEcb _ => commandWord 0x08 1 0 0
  | .cipherMacEcb _ => commandWord 0x08 2 0 0
  | .cipherEncCtr _ => commandWord 0x08 0 1 0
  | .cipherDecCtr _ => commandWord 0x08 1 1 0
  | .cipherMacCtr _ => commandWord 0x08 2 1 0
  | .cipherEncCfb _ => commandWord 0x08 0 2 0
  | .cipherDecCfb _ => commandWord 0x08 1 2 0
  | .cipherMacCfb _ => commandWord 0x08 2 2 0
  | .cipherEncMac _ => commandWord 0x08 0 3 0
  | .cipherDecMac _ => commandWord 0x08 1 3 0
  | .cipherMacMac _ => commandWord 0x08 2 3 0

/-- The payload of a command (R86). -/
def Instr.payload : Instr → List Byte
  | .setkey key => keyPayload key
  | .setkeyb bytes => bytes
  | .setsbox table => sboxPayload table
  | .selsboxA => []
  | .selsboxB => []
  | .setiv blocks => blocksPayload blocks
  | .encblk block => bytes8 block
  | .decblk block => bytes8 block
  | .cipherEncEcb buffer => buffer
  | .cipherDecEcb buffer => buffer
  | .cipherMacEcb buffer => buffer
  | .cipherEncCtr buffer => buffer
  | .cipherDecCtr buffer => buffer
  | .cipherMacCtr buffer => buffer
  | .cipherEncCfb buffer => buffer
  | .cipherDecCfb buffer => buffer
  | .cipherMacCfb buffer => buffer
  | .cipherEncMac buffer => buffer
  | .cipherDecMac buffer => buffer
  | .cipherMacMac buffer => buffer

/-- The encoder: CMD and DIN; LEN is the number of bytes of DIN. -/
def encode (i : Instr) : BitVec 32 × List Byte := (i.word, i.payload)

/-- The command word that a row of spec/opcode_table.json numbers `w`, of `nbits` bits. -/
def tableWord (nbits w : Nat) : BitVec 32 := BitVec.ofNat 32 (w % 2 ^ nbits)

/-- The payload that stands for the operands the table gives no bits: zero bytes, as many as R86 requires, and one chunk of
eight where R86 admits more than one length (log entry 19). -/
def tablePayload (cmd : BitVec 32) : List Byte :=
  match Opcode.ofBits (fieldOpc cmd) with
  | some .setkey => List.replicate 32 0
  | some .setkeyb => List.replicate 32 0
  | some .setsbox => List.replicate 128 0
  | some .selsbox => []
  | some .setiv => List.replicate 8 0
  | some .encblk => List.replicate 8 0
  | some .decblk => List.replicate 8 0
  | some .cipher => List.replicate 8 0
  | none => []

/-- The command the decoder reads from a row of the opcode table with its operands zero. -/
def decodeTableWord (nbits w : Nat) : Option Instr :=
  match decode (tableWord nbits w) (tablePayload (tableWord nbits w)) with
  | .instr i => some i
  | .illegal _ => none

/-- The pseudo-command CLRIV (R95). -/
def pseudoClriv : Instr := .setiv []

/-- The pseudo-command MAC (R95). -/
def pseudoMac (buffer : List Byte) : Instr := .cipherMacMac buffer

/-- The pseudo-commands ENCRYPT.mode (R95). -/
def pseudoEncrypt (mode : CipherMode) (buffer : List Byte) : Instr := cipherInstr .encrypt mode buffer

/-- The pseudo-commands DECRYPT.mode (R95). -/
def pseudoDecrypt (mode : CipherMode) (buffer : List Byte) : Instr := cipherInstr .decrypt mode buffer

end Sys2Proof
end

