-- ==== Sys2Proof/Machine/Fetch.lean ====
section
/-! DEFINITION. Machine/Fetch.lean: taking the next request (20_memory.md R62, 70_reset_and_hazards.md R240): the payload of a
transaction, its length against LEN_MAX, its decoding, and the reset event. -/

namespace Sys2Proof.Machine

/-- What a transaction turns out to be. -/
inductive Fetched where
  /-- A command to execute. -/
  | instr (i : Instr)
  /-- A command the decoder rejects (R88). -/
  | illegal (why : Illegal)
  /-- A payload longer than LEN_MAX (U9). -/
  | tooLong
  /-- DIN does not hold exactly LEN bytes. -/
  | malformed
deriving DecidableEq, Repr

/-- Whether a payload of `len` bytes is within a capacity (R6, R67). -/
def withinCapacity (lenMax len : Nat) : Bool := decide (len ≤ lenMax)

/-- Reading a transaction under a value of LEN_MAX. -/
def fetchWithin (lenMax : Nat) (c : Command) : Fetched :=
  if withinCapacity lenMax c.len.toNat then
    match c.payload? with
    | none => .malformed
    | some din =>
      match decode c.cmd din with
      | .instr i => .instr i
      | .illegal why => .illegal why
  else .tooLong

/-- Reading a transaction under the instance's parameters. -/
def fetch (p : Params) (c : Command) : Fetched := fetchWithin p.lenMax.toNat c

/-- The engine once it has taken its request and `rest` is still to come. -/
def State.accept (s : State) (rest : List Request) : State := { s with inbox := rest }

/-- The reset event (R240): the state of R37 and R38 whatever came before, with a fresh unspecified key. The parameters are fixed
for the life of the instance (R21). -/
def resetEvent (s : State) (rest : List Request) : State := State.afterReset s.params (s.resets + 1) rest

/-- The transaction that carries a command (R80, R86). -/
def Command.ofInstr (i : Instr) : Command := Command.ofBytes (encode i).1 (encode i).2

/-- The transaction that stands for a row of the opcode table with its operands zero (log entry 19). -/
def Command.ofTableWord (nbits w : Nat) : Command :=
  Command.ofBytes (tableWord nbits w) (tablePayload (tableWord nbits w))

/-- The pseudo-command NEW k0, ..., k7 (R95): RESET, then SETKEY. -/
def pseudoNew (key : KeyWords) : List Request := [.reset, .command (Command.ofInstr (.setkey key))]

end Sys2Proof.Machine
end

