-- ==== Sys2Proof/Machine/Step.lean ====
section
/-! DEFINITION. Machine/Step.lean: one step is one transaction, from its presentation to its response (20_memory.md R62, R66), or
one reset event. -/

namespace Sys2Proof.Machine

/-- One step. With nothing presented the engine is idle and keeps its registers (60_exceptions.md R226). -/
def step (s : State) : Host.Outcome State Fault Refusal :=
  match s.inbox with
  | [] => .next s
  | .reset :: rest => .next (resetEvent s rest)
  | .command c :: rest =>
    match fetch s.params c with
    | .instr i => exec i (s.accept rest)
    | .illegal _ => .next ((s.accept rest).raise .illegalCommand)
    | .tooLong => .refused .payloadBeyondLenMax
    | .malformed => .fault .malformedTransaction

/-- The state whose next step executes the given row of the opcode table: its transaction is presented next. -/
def State.withFetchWord (s : State) (nbits w : Nat) : State :=
  { s with inbox := .command (Command.ofTableWord nbits w) :: s.inbox }

end Sys2Proof.Machine
end

