-- ==== Sys2Proof/Safety.lean ====
section
/-! DEFINITION. Safety.lean: the terms claims use: the invariant of the engine's state, what it means to deliver an output or to
fail, and a well-formed presentation by the host. -/

namespace Sys2Proof.Safety

open Sys2Proof.Machine

/-- The round keys are those of the key (10_state.md R23). -/
def RoundKeysConsistent (s : State) : Prop := s.rk = schedule s.key

/-- The response is formed as R80 and R211 say: a produced status code, DOUT in canonical form at offsets 0 to OLEN-1, OLEN
its byte count, and no output beside an error. -/
def ResponseFormed (s : State) : Prop :=
  statusDefined s.status = true ∧ s.dout.wf = true ∧ s.dout.map Prod.fst = List.range s.dout.length ∧
    s.olen = olenOf s.dout.length ∧ (s.status ≠ statusOk → s.dout = [])

/-- The instance's IV_MAX_BLOCKS admits `n` blocks: unbounded, or at least `n` (R117, D21). -/
def DepthAdmits (s : State) (n : Nat) : Prop := ∀ m, s.params.ivMaxBlocks = some m → n ≤ m

/-- The invariant of the engine: round keys consistent (R23), IVLEN within IV_MAX_BLOCKS (10_state.md R30), a formed response. -/
def Inv (s : State) : Prop := RoundKeysConsistent s ∧ DepthAdmits s s.ivLen ∧ ResponseFormed s

/-- The command succeeded with the output `out`: STATUS is OK, OLEN states its length, and DOUT holds exactly its bytes
(R13, R87). -/
def Delivers (t : State) (out : List Byte) : Prop :=
  t.status = statusOk ∧ t.olen = olenOf out.length ∧ ∀ k, t.dout.readByte k = out[k]?

/-- The command failed with the kind `e`: STATUS is its code, and there is no output (R216). -/
def Fails (t : State) (e : ErrorKind) : Prop :=
  t.status = errorCode e ∧ t.olen = 0 ∧ ∀ k, t.dout.readByte k = none

/-- Everything a host can have written is as before: KEY, RK, SBOX, IV; and so are the host's own requests and the instance's
parameters. -/
def SameRegisters (s t : State) : Prop :=
  t.key = s.key ∧ t.rk = s.rk ∧ t.sbox = s.sbox ∧ t.iv = s.iv ∧ t.inbox = s.inbox ∧ t.params = s.params ∧
    t.resets = s.resets

/-- A request the host may make: a reset, or a transaction whose DIN holds exactly LEN bytes, LEN within LEN_MAX (R80). -/
def requestFormed (p : Params) : Request → Bool
  | .reset => true
  | .command c => withinCapacity p.lenMax.toNat c.len.toNat && c.payload?.isSome

/-- Every request still to come is one the host may make. -/
def HostFormed (s : State) : Prop := ∀ r ∈ s.inbox, requestFormed s.params r = true

/-- Byte `j` of a block, byte 0 the most significant (00_scope.md R7, R11). -/
def byteOf (v : Block) (j : Nat) : Byte := v.extractLsb' (8 * (7 - j)) 8

/-- The block at chunk `i` of a buffer, bytes beyond the buffer's end zero (20_memory.md R58). -/
def paddedBlock (buffer : List Byte) (i : Nat) : Block :=
  be64 ((List.range 8).map fun j => buffer.getD (8 * i + j) 0)

/-- In each sub-table the sixteen values are pairwise different (40_key_schedule_and_config.md R115, `perm`). -/
def SubTablesArePermutations (table : SboxTable) : Prop :=
  ∀ i v w : Nat, i < 8 → v < 16 → w < 16 → v ≠ w → table[16 * i + v]? ≠ table[16 * i + w]?

/-- A command that writes no register but STATUS: the block commands and CIPHER (R36). -/
def isCipherOrBlock : Instr → Bool
  | .setkey _ => false
  | .setkeyb _ => false
  | .setsbox _ => false
  | .selsboxA => false
  | .selsboxB => false
  | .setiv _ => false
  | .encblk _ => true
  | .decblk _ => true
  | .cipherEncEcb _ => true
  | .cipherDecEcb _ => true
  | .cipherMacEcb _ => true
  | .cipherEncCtr _ => true
  | .cipherDecCtr _ => true
  | .cipherMacCtr _ => true
  | .cipherEncCfb _ => true
  | .cipherDecCfb _ => true
  | .cipherMacCfb _ => true
  | .cipherEncMac _ => true
  | .cipherDecMac _ => true
  | .cipherMacMac _ => true

end Sys2Proof.Safety
end

