-- ==== Sys2Proof/Certificates/Slice0/Obligations.lean ====
section
/-! DEFINITION. Certificates/Slice0/Obligations.lean: the statements about the engine, each a Prop for the provers. -/

open Sys2Proof Sys2Proof.Machine Sys2Proof.Safety

/-- R37: after reset SBOX is preset A, the IV is empty and STATUS is 0, for every value of the instance's parameters, which reset
keeps. That nothing waits in the inbox is the model's form of "no command is in progress": the inbox is the model's own field and
its reset value is the model's choice, log entry 1. Which parameters State.reset has is log entries 9 to 11. -/
def Obligations.ResetLeavesTheSpecifiedRegisters : Prop :=
  State.reset = State.resetWith Config.defaultParams ∧
    ∀ params : Params, (State.resetWith params).sbox = sboxPresetA ∧ (State.resetWith params).iv = [] ∧
      (State.resetWith params).ivLen = 0 ∧ (State.resetWith params).status = 0 ∧
      (State.resetWith params).params = params ∧ (State.resetWith params).inbox = []

/-- The invariant holds at reset, whatever KEY then holds (R23, R38) and whatever the instance's parameters are. OLEN 0 and an
empty DOUT at reset are the model's choice, log entry 2. -/
def Obligations.ResetMeetsTheInvariant : Prop :=
  Inv State.reset ∧ ∀ params : Params, Inv (State.resetWith params)

/-- R23, the invariant: RK[p] = KEY[kidx(p)] in every state a step leads to. -/
def Obligations.EveryStepKeepsRoundKeysConsistent : Prop :=
  ∀ s t : State, RoundKeysConsistent s → step s = .next t →
    (∀ (p : Nat) (h : p < 24), t.rk[p] = t.key[p % 8]) ∧
      (∀ (p : Nat) (h24 : 24 ≤ p) (h : p < 32), t.rk[p] = t.key[31 - p])

/-- Every step keeps the invariant: round keys consistent (R23), IVLEN within IV_MAX_BLOCKS (R30, R117), a produced status code
(R211), a response formed as R80 says, no output beside an error (R216). -/
def Obligations.EveryStepKeepsTheInvariant : Prop :=
  ∀ s t : State, Inv s → step s = .next t → Inv t

/-- A step takes the transaction presented next and, if it decodes to a command, does exactly what the command does; the request
is gone from what is still to come (R62, R88). The queue of requests is the model's own, log entry 1. -/
def Obligations.StepExecutesTheDecodedCommand : Prop :=
  ∀ (s : State) (c : Command) (rest : List Request) (din : List Byte) (i : Instr),
    s.inbox = .command c :: rest → c.len.toNat ≤ s.params.lenMax.toNat → c.payload? = some din → decode c.cmd din = .instr i →
      i.wellFormed = true → step s = exec i { s with inbox := rest }

/-- Presenting the encoding of a command whose payload is within LEN_MAX executes that command. -/
def Obligations.StepOfAnEncodedCommand : Prop :=
  ∀ (i : Instr) (s : State) (rest : List Request),
    i.fits s.params.lenMax.toNat = true → s.inbox = .command (Command.ofInstr i) :: rest →
      step s = exec i { s with inbox := rest }

/-- Decoding the encoding of a command gives the command back, with every operand (R81, R86, R92). -/
def Obligations.DecodeOfEncodeIsTheCommand : Prop :=
  ∀ i : Instr, decode (encode i).1 (encode i).2 = .instr i

/-- Encoding what was decoded gives the command word and the payload back, but for the upper nibbles of SETSBOX's bytes, which
R86 ignores. -/
def Obligations.EncodeOfDecodeIsTheTransaction : Prop :=
  ∀ (cmd : BitVec 32) (din : List Byte) (i : Instr), decode cmd din = .instr i →
    (encode i).1 = cmd ∧
      ((∀ table, i ≠ .setsbox table) → (encode i).2 = din) ∧
      ((∃ table, i = .setsbox table) → (encode i).2 = din.map fun b => b &&& 0x0F#8)

/-- R92 with R86: a command is well formed exactly when its word is in the map and its LEN is an allowed one. -/
def Obligations.DecodeAcceptsExactlyTheCommandMap : Prop :=
  ∀ (cmd : BitVec 32) (din : List Byte), (∃ i, decode cmd din = .instr i) ↔
    (cmd = 0x00000001#32 ∧ din.length = 32) ∨ cmd = 0x00000002#32 ∨ (cmd = 0x00000003#32 ∧ din.length = 128) ∨
      ((cmd = 0x00000004#32 ∨ cmd = 0x00001004#32) ∧ din.length = 0) ∨ (cmd = 0x00000005#32 ∧ din.length % 8 = 0) ∨
      ((cmd = 0x00000006#32 ∨ cmd = 0x00000007#32) ∧ din.length = 8) ∨
      cmd ∈ [0x00000008#32, 0x00000108#32, 0x00000208#32, 0x00000408#32, 0x00000508#32, 0x00000608#32, 0x00000808#32,
        0x00000908#32, 0x00000A08#32, 0x00000C08#32, 0x00000D08#32, 0x00000E08#32]

/-- R88: the decoder's checks in their order, each reached only when the ones before it pass. -/
def Obligations.DecoderChecksInOrder : Prop :=
  ∀ (cmd : BitVec 32) (din : List Byte),
    let opc := (cmd &&& 0xFF#32).toNat
    let reserved := cmd >>> 13 ≠ 0#32
    let unknown := opc = 0 ∨ 8 < opc
    let stray := (opc ≠ 8 ∧ cmd &&& 0xF00#32 ≠ 0#32) ∨ (opc ≠ 4 ∧ cmd &&& 0x1000#32 ≠ 0#32)
    let badOp := opc = 8 ∧ cmd &&& 0x300#32 = 0x300#32
    let badLen := (opc = 1 ∧ din.length ≠ 32) ∨ (opc = 3 ∧ din.length ≠ 128) ∨ (opc = 4 ∧ din.length ≠ 0) ∨
      (opc = 5 ∧ din.length % 8 ≠ 0) ∨ ((opc = 6 ∨ opc = 7) ∧ din.length ≠ 8)
    (reserved → decode cmd din = .illegal .reservedBits) ∧
      (¬reserved → unknown → decode cmd din = .illegal .unknownOpcode) ∧
      (¬reserved → ¬unknown → stray → decode cmd din = .illegal .strayField) ∧
      (¬reserved → ¬unknown → ¬stray → badOp → decode cmd din = .illegal .reservedOp) ∧
      (¬reserved → ¬unknown → ¬stray → ¬badOp → badLen → decode cmd din = .illegal .payloadLength) ∧
      (¬reserved → ¬unknown → ¬stray → ¬badOp → ¬badLen → ∃ i, decode cmd din = .instr i)

/-- R89: every reserved encoding raises ERR_ILLEGAL_COMMAND and does nothing else. -/
def Obligations.ReservedEncodingsAreIllegal : Prop :=
  ∀ (s : State) (c : Command) (rest : List Request) (din : List Byte),
    let opc := (c.cmd &&& 0xFF#32).toNat
    s.inbox = .command c :: rest → c.len.toNat ≤ s.params.lenMax.toNat → c.payload? = some din →
      (opc = 0 ∨ 9 ≤ opc ∨ c.cmd >>> 13 ≠ 0#32 ∨ (opc ≠ 8 ∧ c.cmd &&& 0xF00#32 ≠ 0#32) ∨
        (opc ≠ 4 ∧ c.cmd &&& 0x1000#32 ≠ 0#32) ∨ c.cmd ∈ [0x308#32, 0x708#32, 0xB08#32, 0xF08#32]) →
      step s = .next { s with inbox := rest, status := 4, olen := 0, dout := [] }

/-- R86, R214: a command of the map whose LEN is not the required one raises ERR_ILLEGAL_COMMAND and does nothing else. -/
def Obligations.WrongLengthIsIllegal : Prop :=
  ∀ (s : State) (c : Command) (rest : List Request) (din : List Byte),
    s.inbox = .command c :: rest → c.len.toNat ≤ s.params.lenMax.toNat → c.payload? = some din →
      ((c.cmd = 0x1#32 ∧ c.len.toNat ≠ 32) ∨ (c.cmd = 0x3#32 ∧ c.len.toNat ≠ 128) ∨
        ((c.cmd = 0x4#32 ∨ c.cmd = 0x1004#32) ∧ c.len.toNat ≠ 0) ∨ (c.cmd = 0x5#32 ∧ c.len.toNat % 8 ≠ 0) ∨
        ((c.cmd = 0x6#32 ∨ c.cmd = 0x7#32) ∧ c.len.toNat ≠ 8)) →
      step s = .next { s with inbox := rest, status := 4, olen := 0, dout := [] }

/-- A transaction whose DIN is not exactly its LEN bytes stops the machine: the model's choice, log entry 14. -/
def Obligations.MalformedTransactionFaults : Prop :=
  ∀ (s : State) (c : Command) (rest : List Request),
    s.inbox = .command c :: rest → c.len.toNat ≤ s.params.lenMax.toNat →
      (c.din.length ≠ c.len.toNat ∨ ∃ k, k < c.len.toNat ∧ c.din.readByte k = none) →
      step s = .fault .malformedTransaction

/-- R225, R248: no host that presents formed transactions can make the engine stop, in any number of steps. That this takes in the
commands the spec would have a model refuse is the model's choice: a command that reads the key before the first is set, log
entry 3, SELSBOX.B without contents for preset B, log entry 6, and a MAC over an empty buffer, log entry 12. An idle step is log
entry 20. -/
def Obligations.FormedHostNeverStopsTheEngine : Prop :=
  ∀ (k : Nat) (s : State), HostFormed s → ∃ t, Sys2Proof.core.run k s = .next t

/-- U9: a payload longer than the instance's LEN_MAX is refused, by name. -/
def Obligations.PayloadBeyondLenMaxIsRefused : Prop :=
  ∀ (s : State) (c : Command) (rest : List Request),
    s.inbox = .command c :: rest → s.params.lenMax.toNat < c.len.toNat → step s = .refused .payloadBeyondLenMax

/-- R21: the parameters of an instance are fixed for its life: no step changes them, a reset event included. -/
def Obligations.NoStepChangesTheParameters : Prop :=
  ∀ s t : State, step s = .next t → t.params = s.params

/-- R226, R240: with nothing presented the engine keeps its registers; a reset event leaves the state of R37 and R38 whatever
came before. That a step with nothing presented changes nothing is log entry 20; what the model's own fields become are log
entries 1, 2 and 4. -/
def Obligations.IdleAndResetSteps : Prop :=
  (∀ s : State, s.inbox = [] → step s = .next s) ∧
    ∀ (s : State) (rest : List Request), s.inbox = .reset :: rest →
      ∃ t, step s = .next t ∧ t.sbox = sboxPresetA ∧ t.iv = [] ∧ t.status = 0 ∧ RoundKeysConsistent t ∧
        t.olen = 0 ∧ t.dout = [] ∧ t.inbox = rest ∧ t.params = s.params ∧ t.resets = s.resets + 1

/-- R113: SETKEY writes KEY, and RK by the schedule of R110, answers OK with no data, and touches nothing else. -/
def Obligations.SetkeyWritesKeyAndRoundKeys : Prop :=
  ∀ (key : KeyWords) (s : State), ∃ t, exec (.setkey key) s = .next t ∧ t.key = key ∧
    (∀ (p : Nat) (h : p < 24), t.rk[p] = key[p % 8]) ∧
    (∀ (p : Nat) (h24 : 24 ≤ p) (h : p < 32), t.rk[p] = key[31 - p]) ∧
    Delivers t [] ∧ t.sbox = s.sbox ∧ t.iv = s.iv ∧ t.inbox = s.inbox ∧ t.params = s.params ∧ t.resets = s.resets

/-- R114: SETKEYB of 32 bytes sets the big-endian key words and their schedule; any other length is ERR_KEY_LENGTH and KEY and RK
keep their values. -/
def Obligations.SetkeybAcceptsExactly32Bytes : Prop :=
  ∀ (bytes : List Byte) (s : State),
    (bytes.length = 32 → ∃ t, exec (.setkeyb bytes) s = .next t ∧
      (∀ (j : Nat) (h : j < 8), t.key[j] =
        bytes.getD (4 * j) 0 ++ bytes.getD (4 * j + 1) 0 ++ bytes.getD (4 * j + 2) 0 ++ bytes.getD (4 * j + 3) 0) ∧
      t.rk = schedule t.key ∧ Delivers t [] ∧ t.sbox = s.sbox ∧ t.iv = s.iv ∧ t.inbox = s.inbox ∧
      t.params = s.params ∧ t.resets = s.resets) ∧
    (bytes.length ≠ 32 → exec (.setkeyb bytes) s = .next { s with status := 1, olen := 0, dout := [] })

/-- R114: for LEN = 32 the command is SETKEY of the decoded words. -/
def Obligations.SetkeybOfKeyBytesIsSetkey : Prop :=
  ∀ (key : KeyWords) (s : State), exec (.setkeyb (keyPayload key)) s = exec (.setkey key) s

/-- R115, R118, R219: SETSBOX stores the whole table, unless the instance's SBOX_VALIDATE is true and a sub-table is no
permutation: then ERR_SBOX_INVALID with SBOX unchanged. -/
def Obligations.SetsboxStoresOrRejectsTheTable : Prop :=
  ∀ (table : SboxTable) (s : State),
    (s.params.sboxValidate = false ∨ SubTablesArePermutations table →
      exec (.setsbox table) s = .next { s with sbox := table, status := 0, olen := 0, dout := [] }) ∧
    (s.params.sboxValidate = true → ¬SubTablesArePermutations table →
      exec (.setsbox table) s = .next { s with status := 5, olen := 0, dout := [] })

/-- R116: SELSBOX loads a preset whole and touches no other register. Preset B's contents are open, log entry 6. -/
def Obligations.SelsboxLoadsThePreset : Prop :=
  ∀ s : State, exec .selsboxA s = .next { s with sbox := sboxPresetA, status := 0, olen := 0, dout := [] } ∧
    exec .selsboxB s = .next { s with sbox := Config.sboxPresetB, status := 0, olen := 0, dout := [] }

/-- R117: SETIV replaces the whole IV; a finite IV_MAX_BLOCKS of the instance that is exceeded gives ERR_ILLEGAL_COMMAND. -/
def Obligations.SetivReplacesTheIv : Prop :=
  ∀ (blocks : List Block) (s : State),
    (DepthAdmits s blocks.length → ∃ t, exec (.setiv blocks) s = .next t ∧ t.iv = blocks ∧
      t.ivLen = blocks.length ∧ Delivers t [] ∧ t.key = s.key ∧ t.rk = s.rk ∧ t.sbox = s.sbox ∧ t.inbox = s.inbox ∧
      t.params = s.params ∧ t.resets = s.resets) ∧
    ∀ m : Nat, s.params.ivMaxBlocks = some m → m < blocks.length →
      exec (.setiv blocks) s = .next { s with status := 4, olen := 0, dout := [] }

/-- R242: the set-up commands may come in any order, for an IV that the instance's depth admits. -/
def Obligations.SetUpCommandsCommute : Prop :=
  ∀ (key : KeyWords) (blocks : List Block) (s : State), DepthAdmits s blocks.length → ∃ a b c d e f u v w,
    exec (.setkey key) s = .next a ∧ exec (.setiv blocks) s = .next b ∧ exec .selsboxA s = .next c ∧
      exec (.setiv blocks) a = .next d ∧ exec (.setkey key) b = .next d ∧
      exec .selsboxA a = .next e ∧ exec (.setkey key) c = .next e ∧
      exec .selsboxA b = .next f ∧ exec (.setiv blocks) c = .next f ∧
      exec .selsboxA d = .next u ∧ exec (.setiv blocks) e = .next v ∧ exec (.setkey key) f = .next w ∧
      u = v ∧ v = w

/-- R110: the schedule written out as key-word indices; and the key words in the order in which the rounds of decrypt use them,
the reverse. The reverse indices are the spec's own inference in R111, not a rule of its own. -/
def Obligations.ScheduleAndItsReverse : Prop :=
  ∀ (key : KeyWords) (sbox : SboxTable) (b : Block),
    let word := fun j : Fin 8 => key[j]
    let forward : List (Fin 8) :=
      [0, 1, 2, 3, 4, 5, 6, 7, 0, 1, 2, 3, 4, 5, 6, 7,
        0, 1, 2, 3, 4, 5, 6, 7, 7, 6, 5, 4, 3, 2, 1, 0]
    let backward : List (Fin 8) :=
      [0, 1, 2, 3, 4, 5, 6, 7, 7, 6, 5, 4, 3, 2, 1, 0,
        7, 6, 5, 4, 3, 2, 1, 0, 7, 6, 5, 4, 3, 2, 1, 0]
    let run := fun js : List (Fin 8) => (js.map word).foldl (fun h k => bigG sbox k h) ⟨hi32 b, lo32 b⟩
    (schedule key).toList = forward.map word ∧ forward.reverse = backward ∧
      encrypt (schedule key) sbox b = join (run forward).a0 (run forward).a1 ∧
      decrypt (schedule key) sbox b = join (run backward).a0 (run backward).a1

/-- R130: each lane of T(a) is the entry of its own sub-table, in its own position. -/
def Obligations.SubstitutionReplacesEachLane : Prop :=
  ∀ (sbox : SboxTable) (a : Word) (i : Nat), i < 8 →
    some ((T sbox a).extractLsb' (4 * i) 4) = sbox[16 * i + (a.extractLsb' (4 * i) 4).toNat]?

/-- R131: G adds modulo 2^32, substitutes, and moves bit j to bit (j + 11) mod 32. -/
def Obligations.RoundTransformAddsSubstitutesRotates : Prop :=
  ∀ (sbox : SboxTable) (k a : Word) (j : Nat), j < 32 →
    (G sbox k a).getLsbD ((j + 11) % 32) = (T sbox (BitVec.ofNat 32 ((k.toNat + a.toNat) % 2 ^ 32))).getLsbD j

/-- R132: bigG passes the low half on as the new high half. That (b1, b0) -> (G(k, b1) xor b0, b1) inverts it is the spec's own
inference from that rule, in R134. -/
def Obligations.FeistelRoundIsInvertible : Prop :=
  ∀ (sbox : SboxTable) (k : Word) (h : Halves),
    bigG sbox k h = ⟨h.a0, G sbox k h.a0 ^^^ h.a1⟩ ∧
      (⟨G sbox k (bigG sbox k h).a1 ^^^ (bigG sbox k h).a0, (bigG sbox k h).a1⟩ : Halves) = h ∧
      bigG sbox k ⟨G sbox k h.a1 ^^^ h.a0, h.a1⟩ = h

/-- R134: T is a bijection on words exactly when each of the eight sub-tables is a permutation of 0..15. -/
def Obligations.SubstitutionIsBijectiveExactlyOnPermutations : Prop :=
  ∀ sbox : SboxTable, Function.Bijective (T sbox) ↔ SubTablesArePermutations sbox

/-- R139: the last round does not exchange the halves; it computes h = G(RK[last], a0) xor a1 and the result is join(h, a0). -/
def Obligations.LastRoundDoesNotExchange : Prop :=
  ∀ (rk : RoundKeys) (sbox : SboxTable) (b : Block),
    (let h := rounds sbox (rk.toList.take 31) ⟨hi32 b, lo32 b⟩
     encrypt rk sbox b = join (G sbox rk[31] h.a0 ^^^ h.a1) h.a0) ∧
      (let h := rounds sbox (rk.toList.reverse.take 31) ⟨hi32 b, lo32 b⟩
       decrypt rk sbox b = join (G sbox rk[0] h.a0 ^^^ h.a1) h.a0)

/-- R141: the round trip, for every key, every table and every block. -/
def Obligations.DecryptUndoesEncrypt : Prop :=
  ∀ (rk : RoundKeys) (sbox : SboxTable) (b : Block),
    decrypt rk sbox (encrypt rk sbox b) = b ∧ encrypt rk sbox (decrypt rk sbox b) = b

/-- R137, R138: ENCBLK and DECBLK answer the 8 bytes of the block function's result and write only STATUS. -/
def Obligations.BlockCommandsAnswerTheBlock : Prop :=
  ∀ (b : Block) (s : State),
    (∃ t, exec (.encblk b) s = .next t ∧ SameRegisters s t ∧ t.status = 0 ∧ t.olen = 8 ∧
      (∀ j, j < 8 → t.dout.readByte j = some (byteOf (encrypt s.rk s.sbox b) j)) ∧
      ∀ j, 8 ≤ j → t.dout.readByte j = none) ∧
    (∃ t, exec (.decblk b) s = .next t ∧ SameRegisters s t ∧ t.status = 0 ∧ t.olen = 8 ∧
      (∀ j, j < 8 → t.dout.readByte j = some (byteOf (decrypt s.rk s.sbox b) j)) ∧
      ∀ j, 8 ≤ j → t.dout.readByte j = none)

/-- R150 to R152: ECB answers, for every chunk, the 8 bytes of the block function on the zero-padded chunk, a short last chunk
included. -/
def Obligations.EcbAnswersEveryChunk : Prop :=
  ∀ (buffer : List Byte) (s : State),
    (∃ t out, exec (.cipherEncEcb buffer) s = .next t ∧ SameRegisters s t ∧ Delivers t out ∧
      out.length = 8 * ((buffer.length + 7) / 8) ∧
      ∀ i j, i < (buffer.length + 7) / 8 → j < 8 →
        out[8 * i + j]? = some (byteOf (encrypt s.rk s.sbox (paddedBlock buffer i)) j)) ∧
    (∃ t out, exec (.cipherDecEcb buffer) s = .next t ∧ SameRegisters s t ∧ Delivers t out ∧
      out.length = 8 * ((buffer.length + 7) / 8) ∧
      ∀ i j, i < (buffer.length + 7) / 8 → j < 8 →
        out[8 * i + j]? = some (byteOf (decrypt s.rk s.sbox (paddedBlock buffer i)) j))

/-- R153: ECB-decrypting the ECB encryption of P gives P followed by the zero padding. -/
def Obligations.EcbRoundTrip : Prop :=
  ∀ (p : List Byte) (s : State), ∃ t u c,
    exec (.cipherEncEcb p) s = .next t ∧ Delivers t c ∧ exec (.cipherDecEcb c) t = .next u ∧
      Delivers u (p ++ List.replicate (8 * ((p.length + 7) / 8) - p.length) 0)

/-- R154: splitting a buffer at a multiple of 8 and processing the parts, the second on the engine the first part left or on any
engine with the same round keys and table, gives the bytes of one command over the whole. -/
def Obligations.EcbSplitsAtChunks : Prop :=
  ∀ (p q : List Byte) (s r : State), p.length % 8 = 0 → r.rk = s.rk → r.sbox = s.sbox →
    (∃ a b c x y, exec (.cipherEncEcb p) s = .next a ∧ Delivers a x ∧ a.rk = s.rk ∧ a.sbox = s.sbox ∧
      exec (.cipherEncEcb q) r = .next b ∧ Delivers b y ∧
      exec (.cipherEncEcb (p ++ q)) s = .next c ∧ Delivers c (x ++ y)) ∧
    (∃ a b c x y, exec (.cipherDecEcb p) s = .next a ∧ Delivers a x ∧ a.rk = s.rk ∧ a.sbox = s.sbox ∧
      exec (.cipherDecEcb q) r = .next b ∧ Delivers b y ∧
      exec (.cipherDecEcb (p ++ q)) s = .next c ∧ Delivers c (x ++ y))

/-- R161, R171, R217: with an empty IV each CTR and CFB command raises ERR_IV_EMPTY, whatever the buffer, LEN = 0 included. For
CTR this is the spec's own decision D14, log entry 8. -/
def Obligations.CtrAndCfbNeedAnIv : Prop :=
  ∀ (buffer : List Byte) (s : State), s.iv = [] →
    exec (.cipherEncCtr buffer) s = .next { s with status := 3, olen := 0, dout := [] } ∧
      exec (.cipherDecCtr buffer) s = .next { s with status := 3, olen := 0, dout := [] } ∧
      exec (.cipherEncCfb buffer) s = .next { s with status := 3, olen := 0, dout := [] } ∧
      exec (.cipherDecCfb buffer) s = .next { s with status := 3, olen := 0, dout := [] }

/-- R162, R163: byte k of a CTR command's output is byte k of the input exclusive-ored with byte k mod 8 of
encrypt(SEED + k div 8), the sum modulo 2^64. SEED is the open ctr_prepare of the IV, log entry 7. -/
def Obligations.CtrAnswersEveryByte : Prop :=
  ∀ (buffer : List Byte) (s : State) (b : Block) (bs : List Block), s.iv = b :: bs →
    ∃ t out, exec (.cipherEncCtr buffer) s = .next t ∧ exec (.cipherDecCtr buffer) s = .next t ∧ SameRegisters s t ∧
      Delivers t out ∧ out.length = buffer.length ∧
      ∀ (k : Nat) (h : k < buffer.length), out[k]? =
        some (buffer[k] ^^^ byteOf (encrypt s.rk s.sbox
          (BitVec.ofNat 64 (((Config.ctrPrepare b bs).toNat + k / 8) % 2 ^ 64))) (k % 8))

/-- R165: encrypt and decrypt under CTR are the identical function. -/
def Obligations.CtrDecryptIsEncrypt : Prop :=
  ∀ (buffer : List Byte) (s : State), exec (.cipherDecCtr buffer) s = exec (.cipherEncCtr buffer) s

/-- R166: applying a CTR command, then either again, returns the buffer. -/
def Obligations.CtrRoundTrip : Prop :=
  ∀ (p : List Byte) (s : State), s.iv ≠ [] → ∃ t u c,
    exec (.cipherEncCtr p) s = .next t ∧ Delivers t c ∧ exec (.cipherDecCtr c) t = .next u ∧ Delivers u p ∧
      exec (.cipherEncCtr c) t = .next u

/-- R163 with R58: the CTR output of a prefix of a buffer is a prefix of the output of the buffer. -/
def Obligations.CtrOutputOfPrefix : Prop :=
  ∀ (p q : List Byte) (s : State), s.iv ≠ [] → ∃ t u x y,
    exec (.cipherEncCtr p) s = .next t ∧ Delivers t x ∧ exec (.cipherEncCtr (p ++ q)) s = .next u ∧
      Delivers u (x ++ y)

/-- R172, R173: a CFB output byte is the input byte exclusive-ored with the keystream of its chunk: encrypt(IV[i]) for i < IVLEN,
then encrypt of the ciphertext block IVLEN chunks before, which is an output block for Encrypt and an input block for Decrypt. -/
def Obligations.CfbAnswersEveryByte : Prop :=
  ∀ (buffer : List Byte) (s : State), s.iv ≠ [] →
    (∃ t out, exec (.cipherEncCfb buffer) s = .next t ∧ SameRegisters s t ∧ Delivers t out ∧
      out.length = buffer.length ∧
      ∀ (k : Nat) (h : k < buffer.length), out[k]? = some (buffer[k] ^^^ byteOf (encrypt s.rk s.sbox
        (if k / 8 < s.ivLen then s.iv.getD (k / 8) 0 else paddedBlock out (k / 8 - s.ivLen))) (k % 8))) ∧
    (∃ t out, exec (.cipherDecCfb buffer) s = .next t ∧ SameRegisters s t ∧ Delivers t out ∧
      out.length = buffer.length ∧
      ∀ (k : Nat) (h : k < buffer.length), out[k]? = some (buffer[k] ^^^ byteOf (encrypt s.rk s.sbox
        (if k / 8 < s.ivLen then s.iv.getD (k / 8) 0 else paddedBlock buffer (k / 8 - s.ivLen))) (k % 8)))

/-- R176: CFB-decrypting the CFB encryption of P under the same IV, which the first pass leaves as it was, gives P. -/
def Obligations.CfbRoundTrip : Prop :=
  ∀ (p : List Byte) (s : State), s.iv ≠ [] → ∃ t u c,
    exec (.cipherEncCfb p) s = .next t ∧ t.iv = s.iv ∧ Delivers t c ∧ exec (.cipherDecCfb c) t = .next u ∧ Delivers u p

/-- R175: for LEN <= 8 * IVLEN the two CFB commands coincide. -/
def Obligations.CfbCommandsCoincideOnShortBuffers : Prop :=
  ∀ (buffer : List Byte) (s : State), s.iv ≠ [] → buffer.length ≤ 8 * s.ivLen →
    exec (.cipherDecCfb buffer) s = exec (.cipherEncCfb buffer) s

/-- R181: doubling is multiplication by two modulo 2^64, with the constant 0x1B exclusive-ored in when bit 63 was set. -/
def Obligations.DoublingOfASubkey : Prop :=
  ∀ x : Block, (dbl x).toNat = if x.toNat < 2 ^ 63 then 2 * x.toNat else (2 * x.toNat - 2 ^ 64) ^^^ 0x1B

/-- R182 to R186: the MAC of a non-empty buffer, its last chunk `last` and the full chunks before it `init`: subkeys from
encrypt(0), chaining, and the high half of the final feedback as 4 bytes. -/
def Obligations.MacAnswersTheTag : Prop :=
  ∀ (init : List (List Byte)) (last : List Byte) (s : State),
    (∀ c ∈ init, c.length = 8) → 0 < last.length → last.length ≤ 8 →
      let enc := encrypt s.rk s.sbox
      let fb := init.foldl (fun fb c => enc (be64 c ^^^ fb)) 0
      let block := if last.length = 8 then be64 last else be64 (last ++ 0x80#8 :: List.replicate (7 - last.length) 0)
      let subkey := if last.length = 8 then dbl (enc 0) else dbl (dbl (enc 0))
      ∃ t, exec (.cipherMacMac (init.flatten ++ last)) s = .next t ∧ SameRegisters s t ∧ t.status = 0 ∧ t.olen = 4 ∧
        (∀ j, j < 4 → t.dout.readByte j = some (byteOf (enc (block ^^^ fb ^^^ subkey)) j)) ∧
        ∀ j, 4 ≤ j → t.dout.readByte j = none

/-- R187: a MAC over an empty buffer completes; its outcome is open: a tag, or ERR_ILLEGAL_COMMAND, the one error that R212, R213,
R217 and R219 do not keep for other commands. That it completes is the model's choice, log entry 12. -/
def Obligations.MacOfEmptyBufferCompletes : Prop :=
  ∀ s : State, ∃ t, exec (.cipherMacMac []) s = .next t ∧ SameRegisters s t ∧
    ((∃ tag : Word, Delivers t (bytes4 tag)) ∨ Fails t .illegalCommand)

/-- R26, R180: only CTR and CFB commands read the IV, and only SETIV writes it: under another IV every other command does the
same. -/
def Obligations.OnlyCtrAndCfbReadTheIv : Prop :=
  ∀ (i : Instr) (s t : State) (iv : List Block),
    (∀ buffer, i ≠ .cipherEncCtr buffer ∧ i ≠ .cipherDecCtr buffer ∧ i ≠ .cipherEncCfb buffer ∧ i ≠ .cipherDecCfb buffer) →
      (∀ blocks, i ≠ .setiv blocks) → exec i s = .next t →
      exec i { s with iv := iv } = .next { t with iv := iv }

/-- R199 to R203: the five invalid pairings raise ERR_INVALID_OP_MODE always, whatever the buffer and the IV. -/
def Obligations.InvalidPairingsAlwaysFail : Prop :=
  ∀ (buffer : List Byte) (s : State),
    exec (.cipherMacEcb buffer) s = .next { s with status := 2, olen := 0, dout := [] } ∧
      exec (.cipherMacCtr buffer) s = .next { s with status := 2, olen := 0, dout := [] } ∧
      exec (.cipherMacCfb buffer) s = .next { s with status := 2, olen := 0, dout := [] } ∧
      exec (.cipherEncMac buffer) s = .next { s with status := 2, olen := 0, dout := [] } ∧
      exec (.cipherDecMac buffer) s = .next { s with status := 2, olen := 0, dout := [] }

/-- R196, R213: a CIPHER command reports ERR_INVALID_OP_MODE exactly when the matrix has its pair invalid. That a MAC over an
empty buffer completes is the model's choice, log entry 12. -/
def Obligations.MatrixDecidesInvalidPairings : Prop :=
  ∀ (op : CipherOp) (mode : CipherMode) (buffer : List Byte) (s : State),
    ∃ t, exec (cipherInstr op mode buffer) s = .next t ∧
      (t.status = 2 ↔ ¬((mode = .mac ∧ op = .messageAuthentication) ∨ (mode ≠ .mac ∧ op ≠ .messageAuthentication)))

/-- R212, R213, R217, R214, R219: which command raises which error, and that no other does. ERR_IV_EMPTY of CTR is the spec's own
decision D14, log entry 8. ERR_ILLEGAL_COMMAND of a decoded command is SETIV's beyond a finite depth (R214, R117), and perhaps
that of a MAC over an empty buffer, whose outcome is open and whose completion is the model's choice, log entry 12. -/
def Obligations.EachErrorHasItsCommand : Prop :=
  ∀ (i : Instr) (s t : State), exec i s = .next t →
    (t.status = 1 ↔ ∃ bytes, i = .setkeyb bytes ∧ bytes.length ≠ 32) ∧
      (t.status = 2 ↔ ∃ buffer, i = .cipherMacEcb buffer ∨ i = .cipherMacCtr buffer ∨ i = .cipherMacCfb buffer ∨
        i = .cipherEncMac buffer ∨ i = .cipherDecMac buffer) ∧
      (t.status = 3 ↔ s.iv = [] ∧ ∃ buffer, i = .cipherEncCtr buffer ∨ i = .cipherDecCtr buffer ∨
        i = .cipherEncCfb buffer ∨ i = .cipherDecCfb buffer) ∧
      (t.status = 4 ↔ (∃ blocks, i = .setiv blocks ∧ ¬DepthAdmits s blocks.length) ∨
        (i = .cipherMacMac [] ∧ Config.macEmpty s.rk s.sbox = .illegalCommand)) ∧
      (t.status = 5 ↔ s.params.sboxValidate = true ∧ ∃ table, i = .setsbox table ∧ ¬SubTablesArePermutations table)

/-- R36, R27, R140: every block and CIPHER command completes and writes no register but STATUS; the IV in particular stays. That
a MAC over an empty buffer completes is the model's choice, log entry 12, and that a command before the first key does, log
entry 3. -/
def Obligations.CipherCommandsWriteOnlyStatus : Prop :=
  ∀ (i : Instr) (s : State), isCipherOrBlock i = true → ∃ t, exec i s = .next t ∧ SameRegisters s t

/-- R36: the write sets of the configuration commands. -/
def Obligations.ConfigurationCommandsWriteTheirOwnRegisters : Prop :=
  ∀ (i : Instr) (s t : State), exec i s = .next t →
    (t.key ≠ s.key ∨ t.rk ≠ s.rk → (∃ key, i = .setkey key) ∨ ∃ bytes, i = .setkeyb bytes) ∧
      (t.sbox ≠ s.sbox → (∃ table, i = .setsbox table) ∨ i = .selsboxA ∨ i = .selsboxB) ∧
      (t.iv ≠ s.iv → ∃ blocks, i = .setiv blocks) ∧ t.inbox = s.inbox ∧ t.params = s.params ∧ t.resets = s.resets

/-- R216, R66: a command that fails writes STATUS, answers no data, and changes no other register. -/
def Obligations.FailureChangesOnlyStatus : Prop :=
  ∀ (i : Instr) (s t : State), exec i s = .next t → t.status ≠ 0 →
    t = { s with status := t.status, olen := 0, dout := [] }

/-- R28: STATUS is never an input of any command; nor is the response that State keeps. -/
def Obligations.NoCommandReadsTheResponse : Prop :=
  ∀ (i : Instr) (s : State) (status : BitVec 8) (olen : BitVec 64) (dout : Memory),
    exec i { s with status := status, olen := olen, dout := dout } = exec i s

/-- R220: after a failed command the engine treats any command as if the failed one had never been issued. -/
def Obligations.FailedCommandLeavesNoTrace : Prop :=
  ∀ (i j : Instr) (s t : State), exec i s = .next t → t.status ≠ 0 → exec j t = exec j s

/-- R33: two identical commands with nothing between them, and two identical block or CIPHER commands with another one between
them, give identical responses: no transient state survives a command. -/
def Obligations.RepeatedCommandGivesTheSameResponse : Prop :=
  (∀ (i : Instr) (s t : State), exec i s = .next t → exec i t = .next t) ∧
    ∀ (i j : Instr) (s t u : State), isCipherOrBlock i = true → isCipherOrBlock j = true →
      exec i s = .next t → exec j t = .next u → exec i u = .next t

/-- R60, R61: OLEN is a function of the mode and LEN alone. OLEN beyond 2^64 - 1 is open, log entry 13, so the ECB clause is for
responses that its 64 bits can state. -/
def Obligations.OutputLengthsFollowTheMode : Prop :=
  ∀ (buffer : List Byte) (s t : State), buffer.length + 7 < 2 ^ 64 → t.status = 0 →
    (exec (.cipherEncEcb buffer) s = .next t ∨ exec (.cipherDecEcb buffer) s = .next t →
      t.olen = BitVec.ofNat 64 (8 * ((buffer.length + 7) / 8))) ∧
    (exec (.cipherEncCtr buffer) s = .next t ∨ exec (.cipherDecCtr buffer) s = .next t ∨
      exec (.cipherEncCfb buffer) s = .next t ∨ exec (.cipherDecCfb buffer) s = .next t →
      t.olen = BitVec.ofNat 64 buffer.length) ∧
    (exec (.cipherMacMac buffer) s = .next t → t.olen = 4)

/-- R64, R112, R246: the command after a configuration command, whichever it is, sees the new key, table or IV: it does what it
does in the state with just those registers replaced. Then what that means for the block commands, and for a CFB command over a
buffer that reads every block of the new IV. Preset B's contents are open, log entry 6. -/
def Obligations.NewConfigurationIsSeenAtOnce : Prop :=
  (∀ (j : Instr) (s : State),
    (∀ key, ∃ t, exec (.setkey key) s = .next t ∧ exec j t = exec j { s with key := key, rk := schedule key }) ∧
    (∀ key, ∃ t, exec (.setkeyb (keyPayload key)) s = .next t ∧
      exec j t = exec j { s with key := key, rk := schedule key }) ∧
    (∀ table, s.params.sboxValidate = false ∨ SubTablesArePermutations table →
      ∃ t, exec (.setsbox table) s = .next t ∧ exec j t = exec j { s with sbox := table }) ∧
    (∃ t, exec .selsboxA s = .next t ∧ exec j t = exec j { s with sbox := sboxPresetA }) ∧
    (∃ t, exec .selsboxB s = .next t ∧ exec j t = exec j { s with sbox := Config.sboxPresetB }) ∧
    ∀ blocks, DepthAdmits s blocks.length →
      ∃ t, exec (.setiv blocks) s = .next t ∧ exec j t = exec j { s with iv := blocks }) ∧
  (∀ (key : KeyWords) (b : Block) (s : State), ∃ t u v, exec (.setkey key) s = .next t ∧
    exec (.encblk b) t = .next u ∧ Delivers u (bytes8 (encrypt (schedule key) s.sbox b)) ∧
    exec (.decblk b) t = .next v ∧ Delivers v (bytes8 (decrypt (schedule key) s.sbox b))) ∧
  (∀ (table : SboxTable) (b : Block) (s : State), s.params.sboxValidate = false ∨ SubTablesArePermutations table →
    ∃ t u v, exec (.setsbox table) s = .next t ∧
      exec (.encblk b) t = .next u ∧ Delivers u (bytes8 (encrypt s.rk table b)) ∧
      exec (.decblk b) t = .next v ∧ Delivers v (bytes8 (decrypt s.rk table b))) ∧
  ∀ (blocks : List Block) (buffer : List Byte) (s : State), blocks ≠ [] → DepthAdmits s blocks.length →
    buffer.length = 8 * blocks.length → ∃ t u out, exec (.setiv blocks) s = .next t ∧
      exec (.cipherEncCfb buffer) t = .next u ∧ Delivers u out ∧
      ∀ (k : Nat) (h : k < buffer.length), out[k]? =
        some (buffer[k] ^^^ byteOf (encrypt s.rk s.sbox (blocks.getD (k / 8) 0)) (k % 8))

/-- R86, D6: the upper nibble of each byte of SETSBOX's payload is ignored. -/
def Obligations.SetsboxIgnoresUpperNibbles : Prop :=
  ∀ din : List Byte, decode 0x00000003#32 din = decode 0x00000003#32 (din.map fun b => b &&& 0x0F#8)

/-- Words written out from R92 decode to the commands they stand for: one per family. -/
def Obligations.SampleWordsDecode : Prop :=
  ∀ buffer : List Byte,
    decode 0b00000000000000000000000000000001#32 (List.replicate 32 0) = .instr (.setkey (Vector.replicate 8 0)) ∧
      decode 0b00000000000000000001000000000100#32 [] = .instr .selsboxB ∧
      decode 0b00000000000000000000000000000110#32 [0xfe, 0xdc, 0xba, 0x98, 0x76, 0x54, 0x32, 0x10] =
        .instr (.encblk 0xfedcba9876543210#64) ∧
      decode 0b00000000000000000000000100001000#32 buffer = .instr (.cipherDecEcb buffer) ∧
      decode 0b00000000000000000000010000001000#32 buffer = .instr (.cipherEncCtr buffer) ∧
      decode 0b00000000000000000000100100001000#32 buffer = .instr (.cipherDecCfb buffer) ∧
      decode 0b00000000000000000000111000001000#32 buffer = .instr (.cipherMacMac buffer) ∧
      decode 0b00000000000000000000110000001000#32 buffer = .instr (.cipherEncMac buffer)
end

