-- ==== Sys2Proof/Laws/Bytes.lean ====
section
/-! SUPPORT. Laws/Bytes.lean: the byte-sequence primitives of R11 are inverse to each other, and the placement of R58. -/

namespace Sys2Proof.Machine

theorem beNat_lt (l : List Byte) : beNat l < 256 ^ l.length := by
  induction l with
  | nil => simp [beNat]
  | cons b bs ih =>
    have hb := b.isLt
    have : b.toNat * 256 ^ bs.length + 256 ^ bs.length ≤ 256 * 256 ^ bs.length := by
      have : (b.toNat + 1) * 256 ^ bs.length ≤ 256 * 256 ^ bs.length := Nat.mul_le_mul_right _ hb
      linarith
    simp only [beNat, List.length_cons, pow_succ]
    omega

@[simp] theorem length_beBytes (n v : Nat) : (beBytes n v).length = n := by
  induction n with
  | zero => rfl
  | succ n ih => simp [beBytes, ih]

theorem beNat_beBytes (n v : Nat) : beNat (beBytes n v) = v % 256 ^ n := by
  induction n with
  | zero => simp [beBytes, beNat, Nat.mod_one]
  | succ n ih =>
    simp only [beBytes, beNat, length_beBytes, ih, BitVec.toNat_ofNat]
    rw [pow_succ 256 n, Nat.mod_mul, show 2 ^ 8 = 256 from rfl, Nat.mul_comm, Nat.add_comm]

theorem beBytes_mod (n v : Nat) : beBytes n (v % 256 ^ n) = beBytes n v := by
  suffices h : ∀ m n v, n ≤ m → beBytes n (v % 256 ^ m) = beBytes n v from h n n v le_rfl
  intro m n v hn
  induction n with
  | zero => rfl
  | succ n ih =>
    simp only [beBytes, ih (by omega), List.cons.injEq, and_true]
    apply BitVec.eq_of_toNat_eq
    obtain ⟨k, rfl⟩ : ∃ k, m = n + 1 + k := ⟨m - (n + 1), by omega⟩
    rw [pow_add, pow_succ, mul_assoc, BitVec.toNat_ofNat, BitVec.toNat_ofNat, Nat.mod_mul_right_div_self]
    exact Nat.mod_mul_right_mod _ _ _

theorem beBytes_beNat (l : List Byte) : beBytes l.length (beNat l) = l := by
  induction l with
  | nil => rfl
  | cons b bs ih =>
    have hlt := beNat_lt bs
    have hpos : 0 < 256 ^ bs.length := by positivity
    simp only [List.length_cons, beBytes, beNat]
    congr 1
    · apply BitVec.eq_of_toNat_eq
      rw [BitVec.toNat_ofNat, Nat.add_comm, Nat.add_mul_div_right _ _ hpos, Nat.div_eq_of_lt hlt]
      simp [Nat.mod_eq_of_lt b.isLt]
    · rw [← beBytes_mod, Nat.add_comm, Nat.add_mul_mod_self_right, Nat.mod_eq_of_lt hlt, ih]

@[simp] theorem length_bytes8 (v : Block) : (bytes8 v).length = 8 := length_beBytes _ _

@[simp] theorem length_bytes4 (v : Word) : (bytes4 v).length = 4 := length_beBytes _ _

@[simp] theorem be64_bytes8 (v : Block) : be64 (bytes8 v) = v := by
  apply BitVec.eq_of_toNat_eq
  simp only [be64, bytes8, beNat_beBytes, BitVec.toNat_ofNat]
  have := v.isLt
  omega

@[simp] theorem be32_bytes4 (v : Word) : be32 (bytes4 v) = v := by
  apply BitVec.eq_of_toNat_eq
  simp only [be32, bytes4, beNat_beBytes, BitVec.toNat_ofNat]
  have := v.isLt
  omega

theorem bytes8_be64 (c : List Byte) (h : c.length = 8) : bytes8 (be64 c) = c := by
  have hlt := beNat_lt c
  rw [h] at hlt
  rw [bytes8, be64, BitVec.toNat_ofNat, Nat.mod_eq_of_lt (by simpa using hlt), ← h, beBytes_beNat]

theorem bytes4_be32 (c : List Byte) (h : c.length = 4) : bytes4 (be32 c) = c := by
  have hlt := beNat_lt c
  rw [h] at hlt
  rw [bytes4, be32, BitVec.toNat_ofNat, Nat.mod_eq_of_lt (by simpa using hlt), ← h, beBytes_beNat]

theorem length_pad0 (c : List Byte) (h : c.length ≤ 8) : (pad0 c).length = 8 := by
  simp [pad0]; omega

theorem length_pad80 (c : List Byte) (h : c.length ≤ 7) : (pad80 c).length = 8 := by
  simp [pad80]; omega

theorem blockOf_full (c : List Byte) (h : c.length = 8) : blockOf c = be64 c := by
  simp [blockOf, pad0, h]

theorem bytes8_blockOf (c : List Byte) (h : c.length ≤ 8) : bytes8 (blockOf c) = pad0 c :=
  bytes8_be64 _ (length_pad0 c h)

theorem blockOf_bytes8 (v : Block) : blockOf (bytes8 v) = v := by
  rw [blockOf_full _ (length_bytes8 v), be64_bytes8]

end Sys2Proof.Machine
end

