-- ==== Sys2Proof/Laws/Chunks.lean ====
section
/-! SUPPORT. Laws/Chunks.lean: the chunks of a buffer (00_scope.md R12), one at a time. -/

namespace Sys2Proof.Machine

@[simp] theorem chunks_nil : chunks [] = [] := rfl

/-- A full chunk in front is the first chunk. -/
theorem chunks_append (c r : List Byte) (h : c.length = 8) : chunks (c ++ r) = c :: chunks r := by
  have hn : chunkCount (c ++ r).length = chunkCount r.length + 1 := by simp [chunkCount, h]; omega
  rw [chunks, hn, List.range_succ_eq_map, List.map_cons, List.map_map, chunks]
  congr 1
  · simp [memRead, chunkLength, h]
  · apply List.map_congr_left
    intro i _
    have h1 : 8 * (i + 1) = c.length + 8 * i := by omega
    have h2 : chunkLength (c.length + r.length) (i + 1) = chunkLength r.length i := by
      simp only [chunkLength]; omega
    simp only [Function.comp, memRead, List.length_append, h2, Nat.succ_eq_add_one]
    rw [h1, List.drop_append]
    simp [List.drop_eq_nil_of_le]

/-- A buffer of 1 to 8 bytes is one chunk. -/
theorem chunks_short (c : List Byte) (h0 : 0 < c.length) (h8 : c.length ≤ 8) : chunks c = [c] := by
  have hn : chunkCount c.length = 1 := by simp only [chunkCount]; omega
  simp [chunks, hn, memRead, chunkLength, Nat.min_eq_right h8]

/-- Induction over a buffer chunk by chunk. -/
theorem chunk_induction {P : List Byte → Prop} (nil : P []) (short : ∀ c, 0 < c.length → c.length < 8 → P c)
    (full : ∀ c r, c.length = 8 → P r → P (c ++ r)) (buf : List Byte) : P buf := by
  suffices h : ∀ n (buf : List Byte), buf.length ≤ n → P buf from h _ buf le_rfl
  intro n
  induction n with
  | zero =>
    intro buf hb
    rw [List.eq_nil_of_length_eq_zero (Nat.le_zero.mp hb)]
    exact nil
  | succ n ih =>
    intro buf hb
    by_cases h8 : 8 ≤ buf.length
    · rw [← List.take_append_drop 8 buf]
      exact full _ _ (by simpa using h8) (ih _ (by simp; omega))
    · by_cases h0 : buf.length = 0
      · rw [List.eq_nil_of_length_eq_zero h0]; exact nil
      · exact short buf (by omega) (by omega)

theorem chunks_length_le (buf c : List Byte) (h : c ∈ chunks buf) : 0 < c.length ∧ c.length ≤ 8 := by
  induction buf using chunk_induction with
  | nil => simp at h
  | short b h0 h8 => rw [chunks_short b h0 (by omega)] at h; simp at h; subst h; omega
  | full b r hb ih =>
    rw [chunks_append b r hb] at h
    rcases List.mem_cons.mp h with rfl | h
    · omega
    · exact ih h

/-- Every byte of a buffer is in exactly one chunk, in order (R59). -/
theorem flatten_chunks (buf : List Byte) : (chunks buf).flatten = buf := by
  induction buf using chunk_induction with
  | nil => rfl
  | short c h0 h8 => simp [chunks_short c h0 (by omega)]
  | full c r hc ih => simp [chunks_append c r hc, ih]

@[simp] theorem length_chunks (buf : List Byte) : (chunks buf).length = chunkCount buf.length := by
  simp [chunks]

theorem chunks_eq_nil_iff (buf : List Byte) : chunks buf = [] ↔ buf = [] := by
  constructor
  · intro h
    rw [← flatten_chunks buf, h]; rfl
  · rintro rfl; rfl

end Sys2Proof.Machine
end

