-- ==== Sys2Proof/Laws/Decode.lean ====
section
/-! SUPPORT. Laws/Decode.lean: the fields of a command's word, its payload's length, and the assembly of operands read back. -/

namespace Sys2Proof

open Sys2Proof.Machine

theorem memRead_flatMap (f : α → List Byte) (n : Nat) (hf : ∀ a, (f a).length = n) (l : List α) (k : Nat)
    (hk : k < l.length) : memRead (l.flatMap f) (n * k) n = f l[k] := by
  induction l generalizing k with
  | nil => simp at hk
  | cons a l ih =>
    cases k with
    | zero => simp [memRead, ← hf a]
    | succ k =>
      have h := ih k (by simpa using hk)
      simp only [memRead] at h ⊢
      rw [show n * (k + 1) = (f a).length + n * k by rw [hf]; ring, List.flatMap_cons, List.drop_append]
      simpa [List.drop_eq_nil_of_le] using h

theorem length_flatMap_const (f : α → List Byte) (n : Nat) (hf : ∀ a, (f a).length = n) (l : List α) :
    (l.flatMap f).length = n * l.length := by
  induction l with
  | nil => rfl
  | cons a l ih => simp [ih, hf]; ring

/-- The key words read back from their payload (R86). -/
@[simp] theorem keyWordsOf_keyPayload (key : KeyWords) : keyWordsOf (keyPayload key) = key := by
  apply Vector.ext
  intro j hj
  simp only [keyWordsOf, Vector.getElem_ofFn, keyPayload]
  rw [memRead_flatMap bytes4 4 length_bytes4 _ _ (by simpa using hj), be32_bytes4]
  simp

/-- The blocks read back from their payload (R86). -/
@[simp] theorem ivBlocksOf_blocksPayload (blocks : List Block) : ivBlocksOf (blocksPayload blocks) = blocks := by
  have hl : (blocksPayload blocks).length / 8 = blocks.length := by
    rw [blocksPayload, length_flatMap_const bytes8 8 length_bytes8]; omega
  apply List.ext_getElem
  · simp [ivBlocksOf, hl]
  · intro k h1 h2
    simp only [ivBlocksOf, List.getElem_map, List.getElem_range, blocksPayload]
    rw [memRead_flatMap bytes8 8 length_bytes8 _ _ h2, be64_bytes8]

/-- The table read back from its payload (R86). -/
@[simp] theorem sboxEntriesOf_sboxPayload (table : SboxTable) : sboxEntriesOf (sboxPayload table) = table := by
  apply Vector.ext
  intro e he
  have h : memRead (sboxPayload table) e 1 = [table[e].setWidth 8] := by
    simp only [memRead, sboxPayload]
    rw [List.drop_eq_getElem_cons (by simpa using he)]
    simp
  simp only [sboxEntriesOf, Vector.getElem_ofFn, h, beNat]
  apply BitVec.eq_of_toNat_eq
  have := table[e].isLt
  simp
  omega

/-- LEN of the encoded command (R86). -/
theorem Instr.length_payload (i : Instr) : i.payload.length = i.payloadLength := by
  cases i with
  | setkey key =>
    rw [Instr.payload, keyPayload, length_flatMap_const bytes4 4 length_bytes4]; simp [Instr.payloadLength]
  | setsbox table => simp [Instr.payload, sboxPayload, Instr.payloadLength]
  | setiv blocks =>
    rw [Instr.payload, blocksPayload, length_flatMap_const bytes8 8 length_bytes8]; rfl
  | encblk block => exact length_bytes8 block
  | decblk block => exact length_bytes8 block
  | _ => rfl

/-- The opcode of a command's row (R92). -/
def Instr.opcode : Instr → Opcode
  | .setkey _ => .setkey
  | .setkeyb _ => .setkeyb
  | .setsbox _ => .setsbox
  | .selsboxA => .selsbox
  | .selsboxB => .selsbox
  | .setiv _ => .setiv
  | .encblk _ => .encblk
  | .decblk _ => .decblk
  | .cipherEncEcb _ => .cipher
  | .cipherDecEcb _ => .cipher
  | .cipherMacEcb _ => .cipher
  | .cipherEncCtr _ => .cipher
  | .cipherDecCtr _ => .cipher
  | .cipherMacCtr _ => .cipher
  | .cipherEncCfb _ => .cipher
  | .cipherDecCfb _ => .cipher
  | .cipherMacCfb _ => .cipher
  | .cipherEncMac _ => .cipher
  | .cipherDecMac _ => .cipher
  | .cipherMacMac _ => .cipher

theorem Instr.word_reserved (i : Instr) : fieldReserved i.word = 0 := by
  cases i <;> simp only [Instr.word] <;> decide

theorem Instr.word_opcode (i : Instr) : Opcode.ofBits (fieldOpc i.word) = some i.opcode := by
  cases i <;> simp only [Instr.word, Instr.opcode] <;> decide

theorem Instr.word_no_stray (i : Instr) : strayField i.opcode i.word = false := by
  cases i <;> simp only [Instr.word, Instr.opcode] <;> decide

/-- The length check passes for the encoded command. -/
theorem Instr.length_allowed (i : Instr) : lengthAllowed i.opcode i.payload.length = true := by
  rw [Instr.length_payload]
  cases i with
  | setiv blocks => simp [Instr.opcode, lengthAllowed, Instr.payloadLength]
  | _ => rfl

end Sys2Proof
end

