-- ==== Sys2Proof/Laws/Engine.lean ====
section
/-! SUPPORT. Laws/Engine.lean: splitting and joining a block change no bit (41_block_engine.md R133), and the rounds over a
sequence of round keys. -/

namespace Sys2Proof.Machine

theorem getLsbD_join (h l : Word) (i : Nat) :
    (join h l).getLsbD i = if i < 32 then l.getLsbD i else h.getLsbD (i - 32) := by
  have := BitVec.getLsbD_append (x := h) (y := l) (i := i)
  rw [join, this]

@[simp] theorem hi32_join (h l : Word) : hi32 (join h l) = h := by
  apply BitVec.eq_of_getLsbD_eq
  intro i hi
  simp [hi32, getLsbD_join, hi]

@[simp] theorem lo32_join (h l : Word) : lo32 (join h l) = l := by
  apply BitVec.eq_of_getLsbD_eq
  intro i hi
  simp [lo32, getLsbD_join, hi]

@[simp] theorem join_hi_lo (b : Block) : join (hi32 b) (lo32 b) = b := by
  apply BitVec.eq_of_getLsbD_eq
  intro i hi
  rw [getLsbD_join]
  split
  · next h => simp [lo32, h]
  · next h => simp [hi32, show i - 32 < 32 by omega, show 32 + (i - 32) = i by omega]

@[simp] theorem splitBlock_joinSwapped (h : Halves) : splitBlock (joinSwapped h) = ⟨h.a0, h.a1⟩ := by
  simp [splitBlock, joinSwapped]

@[simp] theorem rounds_nil (sbox : SboxTable) (h : Halves) : rounds sbox [] h = h := rfl

@[simp] theorem rounds_cons (sbox : SboxTable) (k : Word) (ks : List Word) (h : Halves) :
    rounds sbox (k :: ks) h = rounds sbox ks (bigG sbox k h) := rfl

theorem rounds_append (sbox : SboxTable) (ks ks' : List Word) (h : Halves) :
    rounds sbox (ks ++ ks') h = rounds sbox ks' (rounds sbox ks h) := List.foldl_append

end Sys2Proof.Machine
end

