-- ==== Sys2Proof/Laws/Memory.lean ====
section
/-! SUPPORT. Laws/Memory.lean: the buffer operations keep the canonical form, a read after a write, and what a transaction's
payload is. -/

namespace Sys2Proof.Machine

theorem Memory.wf_iff (m : Memory) : m.wf = true ↔ (m.map Prod.fst).Pairwise (· < ·) := by
  induction m with
  | nil => simp [Memory.wf]
  | cons x m ih =>
    cases m with
    | nil => simp [Memory.wf]
    | cons y m =>
      simp only [Memory.wf, Bool.and_eq_true, decide_eq_true_eq, ih, List.map_cons, List.pairwise_cons,
        List.mem_cons, forall_eq_or_imp]
      constructor
      · rintro ⟨h, hy, hm⟩
        exact ⟨⟨h, fun a ha => h.trans (hy a ha)⟩, hy, hm⟩
      · rintro ⟨⟨h, -⟩, hy, hm⟩
        exact ⟨h, hy, hm⟩

theorem Memory.mem_offsets_writeByte (m : Memory) (off : Nat) (b : Byte) (a : Nat) :
    a ∈ (m.writeByte off b).map Prod.fst ↔ a = off ∨ a ∈ m.map Prod.fst := by
  induction m with
  | nil => simp [Memory.writeByte]
  | cons x m ih =>
    obtain ⟨o, y⟩ := x
    simp only [Memory.writeByte]
    split
    · simp
    · split
      · next h => subst h; simp
      · simp only [List.map_cons, List.mem_cons, ih]; tauto

theorem Memory.wf_writeByte (m : Memory) (off : Nat) (b : Byte) (h : m.wf = true) : (m.writeByte off b).wf = true := by
  rw [Memory.wf_iff] at h ⊢
  induction m with
  | nil => simp [Memory.writeByte]
  | cons x m ih =>
    obtain ⟨o, y⟩ := x
    simp only [List.map_cons, List.pairwise_cons] at h
    simp only [Memory.writeByte]
    split
    · next hlt =>
      simp only [List.map_cons, List.pairwise_cons, List.mem_cons, forall_eq_or_imp]
      exact ⟨⟨hlt, fun a ha => hlt.trans (h.1 a ha)⟩, h⟩
    · split
      · next he => subst he; simpa using h
      · simp only [List.map_cons, List.pairwise_cons, Memory.mem_offsets_writeByte, forall_eq_or_imp]
        exact ⟨⟨by omega, h.1⟩, ih h.2⟩

theorem Memory.wf_write (m : Memory) (off : Nat) (bs : List Byte) (h : m.wf = true) : (m.write off bs).wf = true := by
  induction bs generalizing m off with
  | nil => exact h
  | cons b bs ih => exact ih _ _ (Memory.wf_writeByte m off b h)

theorem Memory.wf_ofBytes (bs : List Byte) : (Memory.ofBytes bs).wf = true := Memory.wf_write [] 0 bs rfl

@[simp] theorem Memory.readByte_nil (a : Nat) : Memory.readByte [] a = none := rfl

theorem Memory.readByte_cons (o : Nat) (y : Byte) (m : Memory) (a : Nat) :
    Memory.readByte ((o, y) :: m) a = if a = o then some y else Memory.readByte m a := by
  by_cases h : a = o
  · simp [Memory.readByte, List.lookup, h]
  · have : (a == o) = false := by simpa using h
    simp [Memory.readByte, List.lookup, h, this]

theorem Memory.readByte_writeByte (m : Memory) (off : Nat) (b : Byte) (a : Nat) :
    (m.writeByte off b).readByte a = if a = off then some b else m.readByte a := by
  induction m with
  | nil => simp [Memory.writeByte, Memory.readByte_cons]
  | cons x m ih =>
    obtain ⟨o, y⟩ := x
    simp only [Memory.writeByte]
    split
    · simp [Memory.readByte_cons]
    · split
      · next he => subst he; by_cases h : a = off <;> simp [Memory.readByte_cons, h]
      · next hne =>
        simp only [Memory.readByte_cons, ih]
        by_cases ho : a = o
        · simp [ho, Ne.symm hne]
        · simp [ho]

/-- The cells that hold `bs` from an offset. -/
def cellsAt : Nat → List Byte → Memory
  | _, [] => []
  | off, b :: bs => (off, b) :: cellsAt (off + 1) bs

theorem Memory.writeByte_end (m : Memory) (off : Nat) (b : Byte) (h : ∀ c ∈ m, c.1 < off) :
    m.writeByte off b = m ++ [(off, b)] := by
  induction m with
  | nil => rfl
  | cons x m ih =>
    obtain ⟨o, y⟩ := x
    have ho : o < off := h (o, y) (by simp)
    simp only [Memory.writeByte, List.cons_append, if_neg (show ¬ off < o by omega), if_neg (show ¬ off = o by omega)]
    rw [ih fun c hc => h c (by simp [hc])]

theorem Memory.write_end (m : Memory) (off : Nat) (bs : List Byte) (h : ∀ c ∈ m, c.1 < off) :
    m.write off bs = m ++ cellsAt off bs := by
  induction bs generalizing m off with
  | nil => simp [Memory.write, cellsAt]
  | cons b bs ih =>
    rw [Memory.write, Memory.writeByte_end m off b h, ih]
    · simp [cellsAt]
    · intro c hc
      simp only [List.mem_append, List.mem_singleton] at hc
      rcases hc with hc | rfl
      · have := h c hc; omega
      · simp

theorem Memory.ofBytes_eq (bs : List Byte) : Memory.ofBytes bs = cellsAt 0 bs := by
  rw [Memory.ofBytes, Memory.write_end _ _ _ (by simp), List.nil_append]

theorem offsets_cellsAt (off : Nat) (bs : List Byte) : (cellsAt off bs).map Prod.fst = List.range' off bs.length := by
  induction bs generalizing off with
  | nil => rfl
  | cons b bs ih => simp [cellsAt, ih, List.range'_succ]

theorem bytes_cellsAt (off : Nat) (bs : List Byte) : (cellsAt off bs).bytes = bs := by
  induction bs generalizing off with
  | nil => rfl
  | cons b bs ih =>
    have := ih (off + 1)
    simp only [Memory.bytes] at this
    simp [Memory.bytes, cellsAt, this]

theorem length_cellsAt (off : Nat) (bs : List Byte) : (cellsAt off bs).length = bs.length := by
  have := congrArg List.length (offsets_cellsAt off bs)
  simpa using this

theorem readByte_cellsAt (off : Nat) (bs : List Byte) (k : Nat) : (cellsAt off bs).readByte (off + k) = bs[k]? := by
  induction bs generalizing off k with
  | nil => simp [cellsAt]
  | cons b bs ih =>
    cases k with
    | zero => simp [cellsAt, Memory.readByte_cons]
    | succ k =>
      have h := ih (off + 1) k
      rw [show off + 1 + k = off + (k + 1) by omega] at h
      simpa [cellsAt, Memory.readByte_cons] using h

@[simp] theorem Memory.length_ofBytes (bs : List Byte) : (Memory.ofBytes bs).length = bs.length := by
  rw [Memory.ofBytes_eq, length_cellsAt]

@[simp] theorem Memory.bytes_ofBytes (bs : List Byte) : (Memory.ofBytes bs).bytes = bs := by
  rw [Memory.ofBytes_eq, bytes_cellsAt]

@[simp] theorem Memory.readByte_ofBytes (bs : List Byte) (k : Nat) : (Memory.ofBytes bs).readByte k = bs[k]? := by
  rw [Memory.ofBytes_eq]
  simpa using readByte_cellsAt 0 bs k

theorem Memory.offsets_ofBytes (bs : List Byte) : (Memory.ofBytes bs).map Prod.fst = List.range bs.length := by
  rw [Memory.ofBytes_eq, offsets_cellsAt, List.range_eq_range']

theorem Memory.read_ofBytes (bs : List Byte) : (Memory.ofBytes bs).read 0 bs.length = some bs := by
  suffices h : ∀ pre post : List Byte, (Memory.ofBytes (pre ++ post)).read pre.length post.length = some post by
    simpa using h [] bs
  intro pre post
  induction post generalizing pre with
  | nil => rfl
  | cons b post ih =>
    have h := ih (pre ++ [b])
    simp only [List.append_assoc, List.singleton_append, List.length_append, List.length_singleton] at h
    simp [Memory.read, h]

/-- The payload of a transaction made from bytes is those bytes. -/
theorem Command.payload?_ofBytes (cmd : BitVec 32) (bs : List Byte) (h : bs.length < 2 ^ 64) :
    (Command.ofBytes cmd bs).payload? = some bs := by
  have hl : (BitVec.ofNat 64 bs.length).toNat = bs.length := by simpa using Nat.mod_eq_of_lt h
  simp only [Command.payload?, Command.ofBytes, hl, Memory.length_ofBytes, if_true, Memory.read_ofBytes]

theorem Memory.length_of_read (m : Memory) (off n : Nat) (bs : List Byte) (h : m.read off n = some bs) :
    bs.length = n := by
  induction n generalizing off bs with
  | zero => simp only [Memory.read, Option.some.injEq] at h; simp [← h]
  | succ n ih =>
    simp only [Memory.read, Option.bind_eq_bind, Option.bind_eq_some_iff] at h
    obtain ⟨b, -, bs', hbs, h⟩ := h
    simp only [pure, Option.some.injEq] at h
    simp [← h, ih _ _ hbs]

/-- A payload has LEN bytes (R80). -/
theorem Command.length_payload (c : Command) (bs : List Byte) (h : c.payload? = some bs) : bs.length = c.len.toNat := by
  simp only [Command.payload?] at h
  split at h
  · exact Memory.length_of_read _ _ _ _ h
  · cases h

end Sys2Proof.Machine
end

