-- ==== Sys2Proof/Laws/Modes.lean ====
section
/-! SUPPORT. Laws/Modes.lean: the mode controllers chunk by chunk, and the length of what they answer (20_memory.md R60). -/

namespace Sys2Proof.Machine

@[simp] theorem length_first (n : Nat) (s : List Byte) : (first n s).length = min n s.length := List.length_take

@[simp] theorem ecb_nil (f : Block → Block) : ecb f [] = [] := rfl

theorem ecb_short (f : Block → Block) (c : List Byte) (h0 : 0 < c.length) (h8 : c.length ≤ 8) :
    ecb f c = bytes8 (f (blockOf c)) := by
  simp [ecb, chunks_short c h0 h8]

theorem ecb_append (f : Block → Block) (c r : List Byte) (h : c.length = 8) :
    ecb f (c ++ r) = bytes8 (f (blockOf c)) ++ ecb f r := by
  simp [ecb, chunks_append c r h]

theorem length_ecb (f : Block → Block) (din : List Byte) : (ecb f din).length = 8 * chunkCount din.length := by
  induction din using chunk_induction with
  | nil => rfl
  | short c h0 h8 => rw [ecb_short f c h0 (by omega), length_bytes8]; simp only [chunkCount]; omega
  | full c r h ih => rw [ecb_append f c r h, List.length_append, ih, length_bytes8, List.length_append, h]; simp only [chunkCount]; omega

theorem ctrChunks_nil (enc : Block → Block) (seed : Block) (i : Nat) : ctrChunks enc seed i [] = [] := rfl

theorem ctrChunks_cons (enc : Block → Block) (seed : Block) (i : Nat) (c : List Byte) (cs : List (List Byte)) :
    ctrChunks enc seed i (c :: cs) =
      first c.length (bytes8 (ctrKeystream enc seed i ^^^ blockOf c)) ++ ctrChunks enc seed (i + 1) cs := rfl

theorem length_ctrChunks (enc : Block → Block) (seed : Block) (i : Nat) (din : List Byte) :
    (ctrChunks enc seed i (chunks din)).length = din.length := by
  induction din using chunk_induction generalizing i with
  | nil => rfl
  | short c h0 h8 => simp [chunks_short c h0 (by omega), ctrChunks_cons, ctrChunks_nil]; omega
  | full c r h ih => simp [chunks_append c r h, ctrChunks_cons, ih, h]

theorem length_ctr (enc : Block → Block) (seed : Block) (din : List Byte) : (ctr enc seed din).length = din.length :=
  length_ctrChunks enc seed 0 din

theorem cfbChunks_nil (enc : Block → Block) (op : CipherOp) (reg : ShiftReg) : cfbChunks enc op reg [] = [] := rfl

theorem cfbChunks_cons (enc : Block → Block) (op : CipherOp) (reg : ShiftReg) (c : List Byte) (cs : List (List Byte)) :
    cfbChunks enc op reg (c :: cs) =
      first c.length (bytes8 (enc reg.front ^^^ blockOf c)) ++
        cfbChunks enc op (reg.popPush (if op = .encrypt then enc reg.front ^^^ blockOf c else blockOf c)) cs := rfl

theorem length_cfb (enc : Block → Block) (op : CipherOp) (reg : ShiftReg) (din : List Byte) :
    (cfb enc op reg din).length = din.length := by
  unfold cfb
  induction din using chunk_induction generalizing reg with
  | nil => rfl
  | short c h0 h8 => simp [chunks_short c h0 (by omega), cfbChunks_cons, cfbChunks_nil]; omega
  | full c r h ih => simp [chunks_append c r h, cfbChunks_cons, ih, h]

/-- Popping the front and pushing at the back leaves the register's length as it was (R170). -/
theorem ShiftReg.length_popPush (reg : ShiftReg) (b : Block) : (reg.popPush b).rest.length = reg.rest.length := by
  obtain ⟨f, _ | ⟨g, gs⟩⟩ := reg <;> simp [ShiftReg.popPush]

/-- The register as a sequence: the front goes and the block comes to the end (R170). -/
theorem ShiftReg.popPush_blocks (reg : ShiftReg) (b : Block) :
    (reg.popPush b).front :: (reg.popPush b).rest = reg.rest ++ [b] := by
  obtain ⟨f, _ | ⟨g, gs⟩⟩ := reg <;> simp [ShiftReg.popPush]

theorem macChain_last (enc : Block → Block) (kn fb : Block) (c : List Byte) :
    macChain enc kn fb c [] = enc (macLastBlock c ^^^ fb ^^^ kn) := rfl

theorem macChain_cons (enc : Block → Block) (kn fb : Block) (c c' : List Byte) (cs : List (List Byte)) :
    macChain enc kn fb c (c' :: cs) = macChain enc kn (enc (be64 c ^^^ fb)) c' cs := rfl

@[simp] theorem length_macTag (fb : Block) : (macTag fb).length = 4 := length_bytes4 _

end Sys2Proof.Machine
end

