-- ==== Sys2Proof/Laws/PerInstr.lean ====
section
/-! SUPPORT. Laws/PerInstr.lean: statements for all instructions, one lemma per constructor. EncodedForm: the encoded command has
the form of R80 and R81, its reserved bits zero and its payload LEN bytes long. -/

namespace Sys2Proof.Laws.EncodedForm

/-- The encoded command's reserved bits are zero and its payload has LEN bytes (30_encoding.md R81, R86). -/
def Statement (i : Instr) : Prop :=
  fieldReserved (encode i).1 = 0 ∧ (encode i).2.length = i.payloadLength

theorem of_instr (i : Instr) : Statement i := ⟨i.word_reserved, i.length_payload⟩

theorem setkey (key : KeyWords) : Statement (.setkey key) := of_instr _

theorem setkeyb (bytes : List Byte) : Statement (.setkeyb bytes) := of_instr _

theorem setsbox (table : SboxTable) : Statement (.setsbox table) := of_instr _

theorem selsboxA : Statement .selsboxA := of_instr _

theorem selsboxB : Statement .selsboxB := of_instr _

theorem setiv (blocks : List Block) : Statement (.setiv blocks) := of_instr _

theorem encblk (block : Block) : Statement (.encblk block) := of_instr _

theorem decblk (block : Block) : Statement (.decblk block) := of_instr _

theorem cipherEncEcb (buffer : List Byte) : Statement (.cipherEncEcb buffer) := of_instr _

theorem cipherDecEcb (buffer : List Byte) : Statement (.cipherDecEcb buffer) := of_instr _

theorem cipherMacEcb (buffer : List Byte) : Statement (.cipherMacEcb buffer) := of_instr _

theorem cipherEncCtr (buffer : List Byte) : Statement (.cipherEncCtr buffer) := of_instr _

theorem cipherDecCtr (buffer : List Byte) : Statement (.cipherDecCtr buffer) := of_instr _

theorem cipherMacCtr (buffer : List Byte) : Statement (.cipherMacCtr buffer) := of_instr _

theorem cipherEncCfb (buffer : List Byte) : Statement (.cipherEncCfb buffer) := of_instr _

theorem cipherDecCfb (buffer : List Byte) : Statement (.cipherDecCfb buffer) := of_instr _

theorem cipherMacCfb (buffer : List Byte) : Statement (.cipherMacCfb buffer) := of_instr _

theorem cipherEncMac (buffer : List Byte) : Statement (.cipherEncMac buffer) := of_instr _

theorem cipherDecMac (buffer : List Byte) : Statement (.cipherDecMac buffer) := of_instr _

theorem cipherMacMac (buffer : List Byte) : Statement (.cipherMacMac buffer) := of_instr _

end Sys2Proof.Laws.EncodedForm
end

