-- ==== Sys2Proof/Laws/State.lean ====
section
/-! SUPPORT. Laws/State.lean: one lemma per field per update of State. -/

namespace Sys2Proof.Machine

@[simp] theorem State.succeed_key (s : State) (out : List Byte) : (s.succeed out).key = s.key := rfl
@[simp] theorem State.succeed_rk (s : State) (out : List Byte) : (s.succeed out).rk = s.rk := rfl
@[simp] theorem State.succeed_sbox (s : State) (out : List Byte) : (s.succeed out).sbox = s.sbox := rfl
@[simp] theorem State.succeed_iv (s : State) (out : List Byte) : (s.succeed out).iv = s.iv := rfl
@[simp] theorem State.succeed_status (s : State) (out : List Byte) : (s.succeed out).status = statusOk := rfl
@[simp] theorem State.succeed_olen (s : State) (out : List Byte) : (s.succeed out).olen = olenOf out.length := rfl
@[simp] theorem State.succeed_dout (s : State) (out : List Byte) : (s.succeed out).dout = Memory.ofBytes out := rfl
@[simp] theorem State.succeed_inbox (s : State) (out : List Byte) : (s.succeed out).inbox = s.inbox := rfl
@[simp] theorem State.succeed_params (s : State) (out : List Byte) : (s.succeed out).params = s.params := rfl
@[simp] theorem State.succeed_resets (s : State) (out : List Byte) : (s.succeed out).resets = s.resets := rfl

@[simp] theorem State.raise_key (s : State) (e : ErrorKind) : (s.raise e).key = s.key := rfl
@[simp] theorem State.raise_rk (s : State) (e : ErrorKind) : (s.raise e).rk = s.rk := rfl
@[simp] theorem State.raise_sbox (s : State) (e : ErrorKind) : (s.raise e).sbox = s.sbox := rfl
@[simp] theorem State.raise_iv (s : State) (e : ErrorKind) : (s.raise e).iv = s.iv := rfl
@[simp] theorem State.raise_status (s : State) (e : ErrorKind) : (s.raise e).status = errorCode e := rfl
@[simp] theorem State.raise_olen (s : State) (e : ErrorKind) : (s.raise e).olen = 0 := rfl
@[simp] theorem State.raise_dout (s : State) (e : ErrorKind) : (s.raise e).dout = [] := rfl
@[simp] theorem State.raise_inbox (s : State) (e : ErrorKind) : (s.raise e).inbox = s.inbox := rfl
@[simp] theorem State.raise_params (s : State) (e : ErrorKind) : (s.raise e).params = s.params := rfl
@[simp] theorem State.raise_resets (s : State) (e : ErrorKind) : (s.raise e).resets = s.resets := rfl

@[simp] theorem State.writeKey_key (s : State) (key : KeyWords) : (s.writeKey key).key = key := rfl
@[simp] theorem State.writeKey_rk (s : State) (key : KeyWords) : (s.writeKey key).rk = schedule key := rfl
@[simp] theorem State.writeKey_sbox (s : State) (key : KeyWords) : (s.writeKey key).sbox = s.sbox := rfl
@[simp] theorem State.writeKey_iv (s : State) (key : KeyWords) : (s.writeKey key).iv = s.iv := rfl
@[simp] theorem State.writeKey_status (s : State) (key : KeyWords) : (s.writeKey key).status = s.status := rfl
@[simp] theorem State.writeKey_olen (s : State) (key : KeyWords) : (s.writeKey key).olen = s.olen := rfl
@[simp] theorem State.writeKey_dout (s : State) (key : KeyWords) : (s.writeKey key).dout = s.dout := rfl
@[simp] theorem State.writeKey_inbox (s : State) (key : KeyWords) : (s.writeKey key).inbox = s.inbox := rfl
@[simp] theorem State.writeKey_params (s : State) (key : KeyWords) : (s.writeKey key).params = s.params := rfl
@[simp] theorem State.writeKey_resets (s : State) (key : KeyWords) : (s.writeKey key).resets = s.resets := rfl

@[simp] theorem State.writeSbox_key (s : State) (table : SboxTable) : (s.writeSbox table).key = s.key := rfl
@[simp] theorem State.writeSbox_rk (s : State) (table : SboxTable) : (s.writeSbox table).rk = s.rk := rfl
@[simp] theorem State.writeSbox_sbox (s : State) (table : SboxTable) : (s.writeSbox table).sbox = table := rfl
@[simp] theorem State.writeSbox_iv (s : State) (table : SboxTable) : (s.writeSbox table).iv = s.iv := rfl
@[simp] theorem State.writeSbox_status (s : State) (table : SboxTable) : (s.writeSbox table).status = s.status := rfl
@[simp] theorem State.writeSbox_olen (s : State) (table : SboxTable) : (s.writeSbox table).olen = s.olen := rfl
@[simp] theorem State.writeSbox_dout (s : State) (table : SboxTable) : (s.writeSbox table).dout = s.dout := rfl
@[simp] theorem State.writeSbox_inbox (s : State) (table : SboxTable) : (s.writeSbox table).inbox = s.inbox := rfl
@[simp] theorem State.writeSbox_params (s : State) (table : SboxTable) : (s.writeSbox table).params = s.params := rfl
@[simp] theorem State.writeSbox_resets (s : State) (table : SboxTable) : (s.writeSbox table).resets = s.resets := rfl

@[simp] theorem State.writeIv_key (s : State) (blocks : List Block) : (s.writeIv blocks).key = s.key := rfl
@[simp] theorem State.writeIv_rk (s : State) (blocks : List Block) : (s.writeIv blocks).rk = s.rk := rfl
@[simp] theorem State.writeIv_sbox (s : State) (blocks : List Block) : (s.writeIv blocks).sbox = s.sbox := rfl
@[simp] theorem State.writeIv_iv (s : State) (blocks : List Block) : (s.writeIv blocks).iv = blocks := rfl
@[simp] theorem State.writeIv_status (s : State) (blocks : List Block) : (s.writeIv blocks).status = s.status := rfl
@[simp] theorem State.writeIv_olen (s : State) (blocks : List Block) : (s.writeIv blocks).olen = s.olen := rfl
@[simp] theorem State.writeIv_dout (s : State) (blocks : List Block) : (s.writeIv blocks).dout = s.dout := rfl
@[simp] theorem State.writeIv_inbox (s : State) (blocks : List Block) : (s.writeIv blocks).inbox = s.inbox := rfl
@[simp] theorem State.writeIv_params (s : State) (blocks : List Block) : (s.writeIv blocks).params = s.params := rfl
@[simp] theorem State.writeIv_resets (s : State) (blocks : List Block) : (s.writeIv blocks).resets = s.resets := rfl

@[simp] theorem State.accept_key (s : State) (rest : List Request) : (s.accept rest).key = s.key := rfl
@[simp] theorem State.accept_rk (s : State) (rest : List Request) : (s.accept rest).rk = s.rk := rfl
@[simp] theorem State.accept_sbox (s : State) (rest : List Request) : (s.accept rest).sbox = s.sbox := rfl
@[simp] theorem State.accept_iv (s : State) (rest : List Request) : (s.accept rest).iv = s.iv := rfl
@[simp] theorem State.accept_status (s : State) (rest : List Request) : (s.accept rest).status = s.status := rfl
@[simp] theorem State.accept_olen (s : State) (rest : List Request) : (s.accept rest).olen = s.olen := rfl
@[simp] theorem State.accept_dout (s : State) (rest : List Request) : (s.accept rest).dout = s.dout := rfl
@[simp] theorem State.accept_inbox (s : State) (rest : List Request) : (s.accept rest).inbox = rest := rfl
@[simp] theorem State.accept_params (s : State) (rest : List Request) : (s.accept rest).params = s.params := rfl
@[simp] theorem State.accept_resets (s : State) (rest : List Request) : (s.accept rest).resets = s.resets := rfl

@[simp] theorem State.afterReset_key (p : Params) (n : Nat) (inbox : List Request) : (State.afterReset p n inbox).key = Config.keyReset n := rfl
@[simp] theorem State.afterReset_rk (p : Params) (n : Nat) (inbox : List Request) : (State.afterReset p n inbox).rk = schedule (Config.keyReset n) := rfl
@[simp] theorem State.afterReset_sbox (p : Params) (n : Nat) (inbox : List Request) : (State.afterReset p n inbox).sbox = sboxPresetA := rfl
@[simp] theorem State.afterReset_iv (p : Params) (n : Nat) (inbox : List Request) : (State.afterReset p n inbox).iv = [] := rfl
@[simp] theorem State.afterReset_status (p : Params) (n : Nat) (inbox : List Request) : (State.afterReset p n inbox).status = statusOk := rfl
@[simp] theorem State.afterReset_olen (p : Params) (n : Nat) (inbox : List Request) : (State.afterReset p n inbox).olen = 0 := rfl
@[simp] theorem State.afterReset_dout (p : Params) (n : Nat) (inbox : List Request) : (State.afterReset p n inbox).dout = [] := rfl
@[simp] theorem State.afterReset_inbox (p : Params) (n : Nat) (inbox : List Request) : (State.afterReset p n inbox).inbox = inbox := rfl
@[simp] theorem State.afterReset_params (p : Params) (n : Nat) (inbox : List Request) : (State.afterReset p n inbox).params = p := rfl
@[simp] theorem State.afterReset_resets (p : Params) (n : Nat) (inbox : List Request) : (State.afterReset p n inbox).resets = n := rfl

@[simp] theorem State.encryptBlock_def (s : State) : s.encryptBlock = encrypt s.rk s.sbox := rfl

@[simp] theorem State.decryptBlock_def (s : State) : s.decryptBlock = decrypt s.rk s.sbox := rfl

end Sys2Proof.Machine
end

