-- ==== Sys2Proof/Laws/Step.lean ====
section
/-! SUPPORT. Laws/Step.lean: everything a command and a step can do (10_state.md R36), said once. -/

namespace Sys2Proof.Machine

theorem done_eq_next (s t : State) : done s = .next t ↔ s = t := by
  simp [done]

/-- The depth check of SETIV is what DepthAdmits says (R117). -/
theorem ivFits_iff (s : State) (n : Nat) : ivFits s.params.ivMaxBlocks n = true ↔ Safety.DepthAdmits s n := by
  unfold ivFits Safety.DepthAdmits
  cases s.params.ivMaxBlocks <;> simp

/-- SETIV within the instance's depth. -/
theorem setIv_of_depthAdmits (blocks : List Block) (s : State) (h : Safety.DepthAdmits s blocks.length) :
    setIv s.params.ivMaxBlocks blocks s = (s.writeIv blocks).succeed [] :=
  if_pos ((ivFits_iff s blocks.length).mpr h)

/-- SETIV beyond the instance's depth. -/
theorem setIv_of_not_depthAdmits (blocks : List Block) (s : State) (h : ¬Safety.DepthAdmits s blocks.length) :
    setIv s.params.ivMaxBlocks blocks s = s.raise .illegalCommand :=
  if_neg (mt (ivFits_iff s blocks.length).mp h)

/-- Everything SETSBOX can do. -/
theorem setSbox_cases (validate : Bool) (table : SboxTable) (s : State) :
    setSbox validate table s = s.raise .sboxInvalid ∨ setSbox validate table s = (s.writeSbox table).succeed [] := by
  unfold setSbox; split <;> simp

/-- Everything SETIV can do. -/
theorem setIv_cases (depth : Option Nat) (blocks : List Block) (s : State) :
    (ivFits depth blocks.length = true ∧ setIv depth blocks s = (s.writeIv blocks).succeed []) ∨
      setIv depth blocks s = s.raise .illegalCommand := by
  unfold setIv; split <;> simp [*]

/-- Everything a CTR command can do. -/
theorem ctrCommand_cases (buffer : List Byte) (s : State) :
    ctrCommand buffer s = s.raise .ivEmpty ∨ ∃ out, ctrCommand buffer s = s.succeed out := by
  unfold ctrCommand; split
  · exact .inl rfl
  · exact .inr ⟨_, rfl⟩

/-- Everything a CFB command can do. -/
theorem cfbCommand_cases (op : CipherOp) (buffer : List Byte) (s : State) :
    cfbCommand op buffer s = s.raise .ivEmpty ∨ ∃ out, cfbCommand op buffer s = s.succeed out := by
  unfold cfbCommand; split
  · exact .inl rfl
  · exact .inr ⟨_, rfl⟩

/-- Everything CIPHER.MAC.MAC can do. -/
theorem macCommand_cases (buffer : List Byte) (s : State) :
    (∃ e, macCommand buffer s = s.raise e) ∨ ∃ out, macCommand buffer s = s.succeed out := by
  unfold macCommand macEmptyResponse; split
  · split
    · exact .inr ⟨_, rfl⟩
    · exact .inl ⟨_, rfl⟩
  · exact .inr ⟨_, rfl⟩

/-- What a command leaves: an error, an output, or one register file written, the IV only within its depth. -/
def CommandResult (s t : State) : Prop :=
  (∃ e, t = s.raise e) ∨ (∃ out, t = s.succeed out) ∨ (∃ key, t = (s.writeKey key).succeed []) ∨
    (∃ table, t = (s.writeSbox table).succeed []) ∨
    ∃ blocks, ivFits s.params.ivMaxBlocks blocks.length = true ∧ t = (s.writeIv blocks).succeed []

/-- Everything a command can do. -/
theorem exec_cases (i : Instr) (s t : State) (h : exec i s = .next t) : CommandResult s t := by
  unfold CommandResult
  cases i with
  | setkey key => exact .inr (.inr (.inl ⟨key, ((done_eq_next _ _).mp h).symm⟩))
  | setkeyb bytes =>
    rw [← (done_eq_next _ _).mp h]
    split
    · exact .inr (.inr (.inl ⟨_, rfl⟩))
    · exact .inl ⟨_, rfl⟩
  | setsbox table =>
    rw [← (done_eq_next _ _).mp h]
    rcases setSbox_cases s.params.sboxValidate table s with h' | h' <;> rw [h']
    · exact .inl ⟨_, rfl⟩
    · exact .inr (.inr (.inr (.inl ⟨_, rfl⟩)))
  | selsboxA => exact .inr (.inr (.inr (.inl ⟨_, ((done_eq_next _ _).mp h).symm⟩)))
  | selsboxB => exact .inr (.inr (.inr (.inl ⟨_, ((done_eq_next _ _).mp h).symm⟩)))
  | setiv blocks =>
    rw [← (done_eq_next _ _).mp h]
    rcases setIv_cases s.params.ivMaxBlocks blocks s with ⟨hf, h'⟩ | h' <;> rw [h']
    · exact .inr (.inr (.inr (.inr ⟨_, hf, rfl⟩)))
    · exact .inl ⟨_, rfl⟩
  | encblk block => exact .inr (.inl ⟨_, ((done_eq_next _ _).mp h).symm⟩)
  | decblk block => exact .inr (.inl ⟨_, ((done_eq_next _ _).mp h).symm⟩)
  | cipherEncEcb buffer => exact .inr (.inl ⟨_, ((done_eq_next _ _).mp h).symm⟩)
  | cipherDecEcb buffer => exact .inr (.inl ⟨_, ((done_eq_next _ _).mp h).symm⟩)
  | cipherMacEcb buffer => exact .inl ⟨_, ((done_eq_next _ _).mp h).symm⟩
  | cipherEncCtr buffer =>
    rw [← (done_eq_next _ _).mp h]
    rcases ctrCommand_cases buffer s with h' | ⟨out, h'⟩ <;> rw [h']
    · exact .inl ⟨_, rfl⟩
    · exact .inr (.inl ⟨_, rfl⟩)
  | cipherDecCtr buffer =>
    rw [← (done_eq_next _ _).mp h]
    rcases ctrCommand_cases buffer s with h' | ⟨out, h'⟩ <;> rw [h']
    · exact .inl ⟨_, rfl⟩
    · exact .inr (.inl ⟨_, rfl⟩)
  | cipherMacCtr buffer => exact .inl ⟨_, ((done_eq_next _ _).mp h).symm⟩
  | cipherEncCfb buffer =>
    rw [← (done_eq_next _ _).mp h]
    rcases cfbCommand_cases .encrypt buffer s with h' | ⟨out, h'⟩ <;> rw [h']
    · exact .inl ⟨_, rfl⟩
    · exact .inr (.inl ⟨_, rfl⟩)
  | cipherDecCfb buffer =>
    rw [← (done_eq_next _ _).mp h]
    rcases cfbCommand_cases .decrypt buffer s with h' | ⟨out, h'⟩ <;> rw [h']
    · exact .inl ⟨_, rfl⟩
    · exact .inr (.inl ⟨_, rfl⟩)
  | cipherMacCfb buffer => exact .inl ⟨_, ((done_eq_next _ _).mp h).symm⟩
  | cipherEncMac buffer => exact .inl ⟨_, ((done_eq_next _ _).mp h).symm⟩
  | cipherDecMac buffer => exact .inl ⟨_, ((done_eq_next _ _).mp h).symm⟩
  | cipherMacMac buffer =>
    rw [← (done_eq_next _ _).mp h]
    rcases macCommand_cases buffer s with ⟨e, h'⟩ | ⟨out, h'⟩ <;> rw [h']
    · exact .inl ⟨_, rfl⟩
    · exact .inr (.inl ⟨_, rfl⟩)

/-- No command touches the host's requests, the parameters or the count of resets. -/
theorem CommandResult.frame {s t : State} (h : CommandResult s t) :
    t.inbox = s.inbox ∧ t.params = s.params ∧ t.resets = s.resets := by
  rcases h with ⟨e, rfl⟩ | ⟨o, rfl⟩ | ⟨k, rfl⟩ | ⟨k, rfl⟩ | ⟨k, -, rfl⟩ <;> simp

/-- A step by what the transaction turns out to be. -/
theorem step_command (s : State) (c : Command) (rest : List Request) (h : s.inbox = .command c :: rest) :
    step s = match fetch s.params c with
      | .instr i => exec i (s.accept rest)
      | .illegal _ => .next ((s.accept rest).raise .illegalCommand)
      | .tooLong => .refused .payloadBeyondLenMax
      | .malformed => .fault .malformedTransaction := by
  obtain ⟨⟩ := s
  cases h
  rfl

/-- Everything a step can do when it answers a next state. -/
theorem step_cases (s t : State) (h : step s = .next t) :
    (s.inbox = [] ∧ t = s) ∨ (∃ rest, s.inbox = .reset :: rest ∧ t = resetEvent s rest) ∨
      ∃ c rest, s.inbox = .command c :: rest ∧ CommandResult (s.accept rest) t := by
  cases hi : s.inbox with
  | nil => rw [step, hi] at h; simp only [Host.Outcome.next.injEq] at h; exact .inl ⟨rfl, h.symm⟩
  | cons r rest =>
    cases r with
    | reset => rw [step, hi] at h; simp only [Host.Outcome.next.injEq] at h; exact .inr (.inl ⟨rest, rfl, h.symm⟩)
    | command c =>
      rw [step_command s c rest hi] at h
      refine .inr (.inr ⟨c, rest, rfl, ?_⟩)
      cases hf : fetch s.params c with
      | instr i => rw [hf] at h; exact exec_cases i _ t h
      | illegal why => rw [hf] at h; simp only [Host.Outcome.next.injEq] at h; exact .inl ⟨_, h.symm⟩
      | tooLong => rw [hf] at h; cases h
      | malformed => rw [hf] at h; cases h

end Sys2Proof.Machine
end

