-- ==== Sys2Proof/Tests/Slice0.lean ====
section
/-! SUPPORT. Tests/Slice0.lean: tests of single operations and steps, their expected values taken from spec/95_test_vectors.md and the
encoding map of 30_encoding.md R92, and for each statement of the obligations a witness that its hypotheses can be met. -/

namespace Sys2Proof.Tests

open Sys2Proof.Machine Sys2Proof.Safety

set_option Elab.async false

/-- K_T of 95_test_vectors.md. -/
def testKey : KeyWords :=
  #v[0xffeeddcc, 0xbbaa9988, 0x77665544, 0x33221100, 0xf0f1f2f3, 0xf4f5f6f7, 0xf8f9fafb, 0xfcfdfeff]

/-- K_T as 32 bytes. -/
def testKeyBytes : List Byte :=
  [0xff, 0xee, 0xdd, 0xcc, 0xbb, 0xaa, 0x99, 0x88, 0x77, 0x66, 0x55, 0x44, 0x33, 0x22, 0x11, 0x00] ++
    [0xf0, 0xf1, 0xf2, 0xf3, 0xf4, 0xf5, 0xf6, 0xf7, 0xf8, 0xf9, 0xfa, 0xfb, 0xfc, 0xfd, 0xfe, 0xff]

/-- P_T of 95_test_vectors.md. -/
def testText : List Byte :=
  [0x92, 0xde, 0xf0, 0x6b, 0x3c, 0x13, 0x0a, 0x59, 0xdb, 0x54, 0xc7, 0x04, 0xf8, 0x18, 0x9d, 0x20] ++
    [0x4a, 0x98, 0xfb, 0x2e, 0x67, 0xa8, 0x02, 0x4c, 0x89, 0x12, 0x40, 0x9b, 0x17, 0xb5, 0x7e, 0x41]

/-- IV_T of 95_test_vectors.md. -/
def testIv : List Block := [0x1234567890abcdef, 0x234567890abcdef1]

/-- The engine after RESET and SETKEY K_T. -/
def keyed : State := State.reset.writeKey testKey

/-- The engine after RESET, SETKEY K_T and SETIV IV_T. -/
def keyedIv : State := keyed.writeIv testIv

/-- The engine with the all-zero key. -/
def zeroKeyed : State := State.reset.writeKey (Vector.replicate 8 0)

/-- The identity table of V1.8. -/
def identityTable : SboxTable := Vector.ofFn fun e => BitVec.ofNat 4 e.val

/-- The all-zero table of V1.9: no sub-table is a permutation. -/
def zeroTable : SboxTable := Vector.replicate 128 0

/-- An instance with an IV register of two blocks, payloads of at most 8 bytes, and SBOX_VALIDATE. -/
def small : State := { keyed with params := ⟨some 2, 8, true⟩ }

/-- STATUS and the output bytes of what a command or step answers. -/
def response (o : Host.Outcome State Fault Refusal) : Option (BitVec 8 × List Byte) :=
  match o with
  | .next t => some (t.status, t.dout.bytes)
  | .fault _ => none
  | .refused _ => none

/-- What is left of the registers. -/
def registers (o : Host.Outcome State Fault Refusal) : Option (KeyWords × RoundKeys × SboxTable × List Block) :=
  match o with
  | .next t => some (t.key, t.rk, t.sbox, t.iv)
  | .fault _ => none
  | .refused _ => none

/-- A state in which a transaction is presented next. -/
def presenting (s : State) (cmd : BitVec 32) (din : List Byte) : State :=
  { s with inbox := [.command (Command.ofBytes cmd din)] }

-- Well-formedness (R80, R86): each constructor with a payload of open length, one byte over the capacity.

theorem test_fits_refuses_long_payloads :
    (Instr.setkeyb [1, 2, 3]).fits 2 = false ∧ (Instr.setiv [1, 2]).fits 15 = false ∧
      (Instr.cipherEncEcb [1, 2, 3]).fits 2 = false ∧ (Instr.cipherDecEcb [1, 2, 3]).fits 2 = false ∧
      (Instr.cipherMacEcb [1, 2, 3]).fits 2 = false ∧ (Instr.cipherEncCtr [1, 2, 3]).fits 2 = false ∧
      (Instr.cipherDecCtr [1, 2, 3]).fits 2 = false ∧ (Instr.cipherMacCtr [1, 2, 3]).fits 2 = false ∧
      (Instr.cipherEncCfb [1, 2, 3]).fits 2 = false ∧ (Instr.cipherDecCfb [1, 2, 3]).fits 2 = false ∧
      (Instr.cipherMacCfb [1, 2, 3]).fits 2 = false ∧ (Instr.cipherEncMac [1, 2, 3]).fits 2 = false ∧
      (Instr.cipherDecMac [1, 2, 3]).fits 2 = false ∧ (Instr.cipherMacMac [1, 2, 3]).fits 2 = false := by decide

theorem test_fits_refuses_fixed_payloads :
    (Instr.setkey testKey).fits 31 = false ∧ (Instr.setsbox zeroTable).fits 127 = false ∧
      (Instr.encblk 0).fits 7 = false ∧ (Instr.decblk 0).fits 7 = false ∧ Instr.selsboxA.fits 0 = true ∧
      (Instr.setiv [1, 2]).fits 16 = true := by decide

theorem test_wellFormed_refuses_beyond_64_bits (b : List Byte) (h : b.length = 2 ^ 64) :
    (Instr.setkeyb b).wellFormed = false ∧ (Instr.cipherMacMac b).wellFormed = false ∧
      (Instr.cipherEncCtr b).wellFormed = false := by
  refine ⟨?_, ?_, ?_⟩ <;> exact decide_eq_false (by simp only [Instr.payloadLength, Config.lenLimit, h]; decide)

theorem test_wellFormed_at_64_bits (blocks : List Block) (b : List Byte) (h : blocks.length = 2 ^ 61)
    (hb : b.length = 2 ^ 64 - 1) :
    (Instr.setiv blocks).wellFormed = false ∧ (Instr.cipherMacMac b).wellFormed = true :=
  ⟨decide_eq_false (by simp only [Instr.payloadLength, Config.lenLimit, h]; decide),
    decide_eq_true (by simp only [Instr.payloadLength, Config.lenLimit, hb]; decide)⟩

-- Decoding: words written out bit by bit from the map of R92 (CMD[31:13], sel, mode, op, opc).

theorem test_decode_setkey :
    decode 0b0000000000000000000_0_00_00_00000001#32 testKeyBytes = .instr (.setkey testKey) := by decide +kernel

theorem test_decode_setkeyb :
    decode 0b0000000000000000000_0_00_00_00000010#32 [0xff, 0xee] = .instr (.setkeyb [0xff, 0xee]) := by decide +kernel

theorem test_decode_setsbox :
    decode 0b0000000000000000000_0_00_00_00000011#32
      ((List.range 128).map fun e => BitVec.ofNat 8 (0xf0 + e % 16)) = .instr (.setsbox identityTable) := by decide +kernel

theorem test_decode_selsboxA : decode 0b0000000000000000000_0_00_00_00000100#32 [] = .instr .selsboxA := by decide

theorem test_decode_selsboxB : decode 0b0000000000000000000_1_00_00_00000100#32 [] = .instr .selsboxB := by decide

theorem test_decode_setiv :
    decode 0b0000000000000000000_0_00_00_00000101#32
      [0x12, 0x34, 0x56, 0x78, 0x90, 0xab, 0xcd, 0xef, 0x23, 0x45, 0x67, 0x89, 0x0a, 0xbc, 0xde, 0xf1] =
      .instr (.setiv testIv) := by decide +kernel

theorem test_decode_encblk :
    decode 0b0000000000000000000_0_00_00_00000110#32 [0xfe, 0xdc, 0xba, 0x98, 0x76, 0x54, 0x32, 0x10] =
      .instr (.encblk 0xfedcba9876543210) := by decide +kernel

theorem test_decode_decblk :
    decode 0b0000000000000000000_0_00_00_00000111#32 [0x4e, 0xe9, 0x01, 0xe5, 0xc2, 0xd8, 0xca, 0x3d] =
      .instr (.decblk 0x4ee901e5c2d8ca3d) := by decide +kernel

theorem test_decode_cipherEncEcb :
    decode 0b0000000000000000000_0_00_00_00001000#32 [0x92] = .instr (.cipherEncEcb [0x92]) := by decide

theorem test_decode_cipherDecEcb :
    decode 0b0000000000000000000_0_00_01_00001000#32 [0x92] = .instr (.cipherDecEcb [0x92]) := by decide

theorem test_decode_cipherMacEcb :
    decode 0b0000000000000000000_0_00_10_00001000#32 [0x92] = .instr (.cipherMacEcb [0x92]) := by decide

theorem test_decode_cipherEncCtr :
    decode 0b0000000000000000000_0_01_00_00001000#32 [0x92] = .instr (.cipherEncCtr [0x92]) := by decide

theorem test_decode_cipherDecCtr :
    decode 0b0000000000000000000_0_01_01_00001000#32 [0x92] = .instr (.cipherDecCtr [0x92]) := by decide

theorem test_decode_cipherMacCtr :
    decode 0b0000000000000000000_0_01_10_00001000#32 [0x92] = .instr (.cipherMacCtr [0x92]) := by decide

theorem test_decode_cipherEncCfb :
    decode 0b0000000000000000000_0_10_00_00001000#32 [0x92] = .instr (.cipherEncCfb [0x92]) := by decide

theorem test_decode_cipherDecCfb :
    decode 0b0000000000000000000_0_10_01_00001000#32 [0x92] = .instr (.cipherDecCfb [0x92]) := by decide

theorem test_decode_cipherMacCfb :
    decode 0b0000000000000000000_0_10_10_00001000#32 [0x92] = .instr (.cipherMacCfb [0x92]) := by decide

theorem test_decode_cipherEncMac :
    decode 0b0000000000000000000_0_11_00_00001000#32 [0x92] = .instr (.cipherEncMac [0x92]) := by decide

theorem test_decode_cipherDecMac :
    decode 0b0000000000000000000_0_11_01_00001000#32 [0x92] = .instr (.cipherDecMac [0x92]) := by decide

theorem test_decode_cipherMacMac :
    decode 0b0000000000000000000_0_11_10_00001000#32 [0x92] = .instr (.cipherMacMac [0x92]) := by decide

theorem test_encode_keeps_operands :
    encode (.setiv testIv) =
        (0x00000005#32, [0x12, 0x34, 0x56, 0x78, 0x90, 0xab, 0xcd, 0xef, 0x23, 0x45, 0x67, 0x89, 0x0a, 0xbc, 0xde, 0xf1]) ∧
      encode (.setkey testKey) = (0x00000001#32, testKeyBytes) := by decide +kernel

-- The table of 95_test_vectors.md section 3.8 and V3.5: what the decoder rejects, check by check.

theorem test_decode_check1 :
    decode 0x00002008#32 (testText.take 8) = .illegal .reservedBits ∧
      decode 0x80000006#32 (testText.take 8) = .illegal .reservedBits := by decide

theorem test_decode_check2 :
    decode 0x00000000#32 [] = .illegal .unknownOpcode ∧ decode 0x00000009#32 [] = .illegal .unknownOpcode ∧
      decode 0x000000ff#32 [] = .illegal .unknownOpcode := by decide

theorem test_decode_check3 :
    decode 0x00000106#32 (testText.take 8) = .illegal .strayField ∧
      decode 0x00000401#32 testText = .illegal .strayField ∧
      decode 0x00001008#32 (testText.take 8) = .illegal .strayField := by decide

theorem test_decode_check4 :
    decode 0x00000308#32 [] = .illegal .reservedOp ∧ decode 0x00000f08#32 (testText.take 8) = .illegal .reservedOp := by
  decide

theorem test_decode_check5 :
    decode 0x00001004#32 [0] = .illegal .payloadLength ∧ decode 0x00000005#32 (testText.take 7) = .illegal .payloadLength ∧
      decode 0x00000003#32 (List.replicate 127 0) = .illegal .payloadLength ∧
      decode 0x00000001#32 (testText.take 31) = .illegal .payloadLength ∧
      decode 0x00000006#32 (testText.take 9) = .illegal .payloadLength ∧
      decode 0x00000007#32 [] = .illegal .payloadLength := by decide +kernel

-- The block engine: section 3.2 and V3.1.

theorem test_T :
    T sboxPresetA 0x00000000 = 0x1857cb6c ∧ T sboxPresetA 0xffffffff = 0x270cb0f1 ∧
      T sboxPresetA 0xfdb97531 = 0x2a196f34 ∧ T sboxPresetA 0x10000000 = 0x7857cb6c := by decide +kernel

theorem test_G :
    G sboxPresetA 0xffffffff 0x00000001 = 0xbe5b60c2 ∧ G sboxPresetA 0x87654321 0xfedcba98 = 0xfdcbc20c := by
  decide +kernel

theorem test_bigG :
    bigG sboxPresetA 0xffeeddcc ⟨0xfedcba98, 0x76543210⟩ = ⟨0x76543210, 0x28da3b14⟩ := by decide +kernel

-- Configuration: section 3.1.

/-- V1.1: the last eight round keys run backwards. -/
theorem test_setkey_schedule :
    (registers (exec (.setkey testKey) zeroKeyed)).map (fun r => r.2.1.toList) =
      some (testKey.toList ++ testKey.toList ++ testKey.toList ++ testKey.toList.reverse) := by decide +kernel

/-- V1.2. -/
theorem test_setkeyb_words :
    (registers (exec (.setkeyb testKeyBytes) zeroKeyed)).map (fun r => r.1) = some testKey := by decide +kernel

/-- V1.3. -/
theorem test_setkeyb_length :
    response (exec (.setkeyb (testKeyBytes.take 31)) keyed) = some (1, []) ∧
      registers (exec (.setkeyb (testKeyBytes.take 31)) keyed) = registers (.next keyed) ∧
      response (exec (.setkeyb (testKeyBytes ++ [0])) keyed) = some (1, []) ∧
      response (exec (.setkeyb []) keyed) = some (1, []) := by decide +kernel

/-- V1.8: under the identity table T(a) = a. -/
theorem test_setsbox_identity :
    (setSbox true identityTable keyed).sbox = identityTable ∧ T identityTable 0x89abcdef = 0x89abcdef := by decide +kernel

/-- V1.9: a table that is no permutation, without and with the check. -/
theorem test_setsbox_validate :
    response (exec (.setsbox zeroTable) { keyed with params := ⟨none, 8, false⟩ }) = some (0, []) ∧
      response (exec (.setsbox zeroTable) small) = some (5, []) ∧
      registers (exec (.setsbox zeroTable) small) = registers (.next small) := by decide +kernel

/-- P5, step 7: SELSBOX.A brings the preset back and leaves the key alone. -/
theorem test_selsboxA :
    registers (exec .selsboxA (keyed.writeSbox identityTable)) = registers (.next keyed) := by decide +kernel

theorem test_selsboxB :
    response (exec .selsboxB keyed) = some (0, []) ∧
      (registers (exec .selsboxB keyed)).map (fun r => r.1) = some testKey := by decide +kernel

/-- V1.6. -/
theorem test_setiv :
    (registers (exec (.setiv testIv) keyed)).map (fun r => r.2.2.2) = some [0x1234567890abcdef, 0x234567890abcdef1] ∧
      (registers (exec (.setiv []) keyedIv)).map (fun r => r.2.2.2) = some [] := by decide +kernel

/-- R117 at its boundary: two blocks, and three, for a register of two. -/
theorem test_setiv_depth :
    response (exec (.setiv testIv) small) = some (0, []) ∧ response (exec (.setiv [1, 2, 3]) small) = some (4, []) ∧
      registers (exec (.setiv [1, 2, 3]) small) = registers (.next small) := by decide +kernel

-- Blocks and modes: sections 1, 3.3 to 3.7.

/-- S1, the source's own vector. -/
theorem test_encblk :
    response (exec (.encblk 0xfedcba9876543210) keyed) =
      some (0, [0x4e, 0xe9, 0x01, 0xe5, 0xc2, 0xd8, 0xca, 0x3d]) := by decide +kernel

/-- V3.2. -/
theorem test_decblk :
    response (exec (.decblk 0x4ee901e5c2d8ca3d) keyed) =
      some (0, [0xfe, 0xdc, 0xba, 0x98, 0x76, 0x54, 0x32, 0x10]) := by decide +kernel

/-- Section 3.4: a nine-byte buffer answers two blocks. -/
theorem test_cipherEncEcb :
    response (exec (.cipherEncEcb (testText.take 9)) keyed) =
      some (0, [0x2b, 0x07, 0x3f, 0x04, 0x94, 0xf3, 0x72, 0xa0, 0xa3, 0xe3, 0xdc, 0x28, 0x5a, 0x31, 0x54, 0x2c]) := by
  decide +kernel

/-- Section 3.4. -/
theorem test_cipherDecEcb :
    response (exec (.cipherDecEcb [0x8f, 0xaa, 0x22, 0xf2, 0xa9, 0x93, 0x4c, 0x61]) keyed) =
      some (0, [0x92, 0, 0, 0, 0, 0, 0, 0]) := by decide +kernel

/-- Section 3.5, on the controller with the seed of the default ctr_prepare: 13 bytes. -/
theorem test_ctr :
    Config.ctrPrepareDefault 0x1234567890abcdef [0x234567890abcdef1] = 0x1234567800000000 ∧
      ctr keyedIv.encryptBlock (Config.ctrPrepareDefault 0x1234567890abcdef [0x234567890abcdef1]) (testText.take 13) =
        [0x4e, 0x98, 0x11, 0x0c, 0x97, 0xb7, 0xb9, 0x3c, 0x3e, 0x25, 0x0d, 0x93, 0xd6] := by decide +kernel

/-- Section 3.5: the counter wraps modulo 2^64. -/
theorem test_ctr_wraps :
    ctrKeystream (fun b => b) 0xffffffffffffffff 1 = 0 ∧
      ctrKeystream (fun b => b) 0x00000000ffffffff 1 = 0x0000000100000000 := by decide +kernel

/-- Section 3.8: CTR with an empty IV. -/
theorem test_ctr_empty_iv :
    response (exec (.cipherEncCtr []) keyed) = some (3, []) ∧ response (exec (.cipherDecCtr [0x92]) keyed) = some (3, []) := by
  decide +kernel

/-- Section 3.6: three chunks, the last of three bytes. -/
theorem test_cipherEncCfb :
    response (exec (.cipherEncCfb (testText.take 19)) keyedIv) =
      some (0, [0xdb, 0x37, 0xe0, 0xe2, 0x66, 0x90, 0x3c, 0x83, 0x0d, 0x46, 0x64, 0x4c, 0x1f, 0x9a, 0x08, 0x9c,
        0x24, 0xbd, 0xd2]) := by decide +kernel

/-- Section 3.6, one-block IV: decrypting a plaintext pushes the input block; the first eleven bytes. -/
theorem test_cipherDecCfb :
    response (exec (.cipherDecCfb (testText.take 11)) (keyed.writeIv [0x1234567890abcdef])) =
      some (0, [0xdb, 0x37, 0xe0, 0xe2, 0x66, 0x90, 0x3c, 0x83, 0xf0, 0x53, 0xf8]) := by decide +kernel

/-- Section 3.8: CFB with an empty IV. -/
theorem test_cfb_empty_iv :
    response (exec (.cipherEncCfb []) keyed) = some (3, []) ∧ response (exec (.cipherDecCfb [0x92]) keyed) = some (3, []) := by
  decide +kernel

/-- Section 3.7. -/
theorem test_dbl :
    dbl 0 = 0 ∧ dbl 1 = 2 ∧ dbl 0x7fffffffffffffff = 0xfffffffffffffffe ∧ dbl 0x8000000000000000 = 0x1b ∧
      dbl 0xffffffffffffffff = 0xffffffffffffffe5 := by decide +kernel

/-- S2, the source's own vector. -/
theorem test_cipherMacMac :
    response (exec (.cipherMacMac testText) keyed) = some (0, [0x15, 0x4e, 0x72, 0x10]) := by decide +kernel

/-- Section 3.7: the padded last chunk with K2, through the 0x1B branch. -/
theorem test_cipherMacMac_short :
    response (exec (.cipherMacMac [0x00]) zeroKeyed) = some (0, [0xbb, 0xd6, 0x75, 0x8a]) := by decide +kernel

/-- Section 3.8: the invalid pairings, although the IV is empty, and with no payload. -/
theorem test_invalid_pairings :
    response (exec (.cipherMacEcb [0]) keyed) = some (2, []) ∧ response (exec (.cipherMacCtr [0]) keyed) = some (2, []) ∧
      response (exec (.cipherMacCfb [0]) keyed) = some (2, []) ∧ response (exec (.cipherEncMac []) keyed) = some (2, []) ∧
      response (exec (.cipherDecMac [0x15, 0x4e, 0x72, 0x10]) keyed) = some (2, []) := by decide +kernel

-- Steps: section 3.8 and the reset of R37.

theorem test_step_runs_a_command :
    response (step (presenting keyed 0x00000208#32 [0])) = some (2, []) ∧
      registers (step (presenting keyed 0x00000005#32 [])) = registers (.next keyed) := by decide +kernel

theorem test_step_rejects_reserved :
    response (step (presenting keyed 0x00000308#32 [])) = some (4, []) ∧
      registers (step (presenting keyed 0x00000308#32 [])) = registers (.next keyed) := by decide +kernel

/-- U9 at its boundary: a payload of eight bytes, and of nine, for a LEN_MAX of eight. -/
theorem test_step_len_max :
    response (step (presenting small 0x00000208#32 (testText.take 8))) = some (2, []) ∧
      step (presenting small 0x00000208#32 (testText.take 9)) = .refused .payloadBeyondLenMax := by
  exact ⟨by decide +kernel, rfl⟩

theorem test_step_table_word :
    decodeTableWord 32 0x00000001 = some (.setkey (Vector.replicate 8 0)) ∧
      decodeTableWord 32 0x00000e08 = some (.cipherMacMac (List.replicate 8 0)) ∧
      response (step (State.reset.withFetchWord 32 0x00000001)) = some (0, []) := by decide +kernel

theorem test_reset_event :
    (registers (step { keyedIv with sbox := zeroTable, inbox := [.reset] })).map (fun r => r.2.2) =
      some (sboxPresetA, []) := by decide +kernel

-- Witnesses: for each statement with hypotheses, a state and operands that meet them together.

/-- A state with a formed transaction next, whose command is SELSBOX.A. -/
def selecting : State := presenting keyed 0x00000004#32 []

/-- A state with a reserved command word next. -/
def misled : State := presenting keyed 0x00000308#32 []

theorem witness_EveryStepKeepsRoundKeysConsistent :
    RoundKeysConsistent selecting ∧ step selecting = .next ((selecting.accept []).writeSbox sboxPresetA |>.succeed []) :=
  ⟨rfl, rfl⟩

theorem witness_EveryStepKeepsTheInvariant :
    Inv selecting ∧ step selecting = .next ((selecting.accept []).writeSbox sboxPresetA |>.succeed []) :=
  ⟨⟨rfl, fun _ h => (by cases h), by decide, by decide, by decide, rfl, by decide⟩, rfl⟩

theorem witness_StepExecutesTheDecodedCommand :
    selecting.inbox = .command (Command.ofBytes 0x00000004#32 []) :: [] ∧
      (Command.ofBytes 0x00000004#32 []).len.toNat ≤ selecting.params.lenMax.toNat ∧
      (Command.ofBytes 0x00000004#32 []).payload? = some [] ∧ decode 0x00000004#32 [] = .instr .selsboxA ∧
      Instr.selsboxA.wellFormed = true := by
  exact ⟨rfl, by decide, by decide, by decide, by decide⟩

theorem witness_StepOfAnEncodedCommand :
    Instr.selsboxA.fits selecting.params.lenMax.toNat = true ∧
      selecting.inbox = .command (Command.ofInstr .selsboxA) :: [] :=
  ⟨by decide, rfl⟩

theorem witness_EncodeOfDecodeIsTheTransaction :
    decode 0x00000003#32 (List.replicate 128 0xf0) = .instr (.setsbox zeroTable) ∧
      decode 0x00000006#32 (testText.take 8) = .instr (.encblk 0x92def06b3c130a59) := by decide +kernel

/-- For each of the five checks a word and length that fails it and passes the ones before; the words of section 3.8. -/
theorem witness_DecoderChecksInOrder :
    0x00002008#32 >>> 13 ≠ 0#32 ∧
      (0x00000009#32 >>> 13 = 0#32 ∧ 8 < (0x00000009#32 &&& 0xFF#32).toNat) ∧
      (0x00000401#32 >>> 13 = 0#32 ∧ (0x00000401#32 &&& 0xFF#32).toNat = 1 ∧ 0x00000401#32 &&& 0xF00#32 ≠ 0#32) ∧
      (0x00000308#32 >>> 13 = 0#32 ∧ (0x00000308#32 &&& 0xFF#32).toNat = 8 ∧ 0x00000308#32 &&& 0x1000#32 = 0#32 ∧
        0x00000308#32 &&& 0x300#32 = 0x300#32) ∧
      (0x00000001#32 >>> 13 = 0#32 ∧ (0x00000001#32 &&& 0xFF#32).toNat = 1 ∧ 0x00000001#32 &&& 0xF00#32 = 0#32 ∧
        0x00000001#32 &&& 0x1000#32 = 0#32 ∧ (testText.take 31).length ≠ 32 ∧ testText.length = 32) := by decide

/-- Each case of the reserved encodings, at its boundary; the words of section 3.8. -/
theorem witness_ReservedEncodingsAreIllegal :
    misled.inbox = .command (Command.ofBytes 0x00000308#32 []) :: [] ∧
      (Command.ofBytes 0x00000308#32 []).len.toNat ≤ misled.params.lenMax.toNat ∧
      (Command.ofBytes 0x00000308#32 []).payload? = some [] ∧
      0x00000308#32 ∈ [0x308#32, 0x708#32, 0xB08#32, 0xF08#32] ∧
      (0x00000100#32 &&& 0xFF#32).toNat = 0 ∧ 9 ≤ (0x00000009#32 &&& 0xFF#32).toNat ∧
      0x00002008#32 >>> 13 ≠ 0#32 ∧ 0x80000006#32 >>> 13 ≠ 0#32 ∧
      ((0x00000106#32 &&& 0xFF#32).toNat ≠ 8 ∧ 0x00000106#32 &&& 0xF00#32 ≠ 0#32) ∧
      ((0x00001008#32 &&& 0xFF#32).toNat ≠ 4 ∧ 0x00001008#32 &&& 0x1000#32 ≠ 0#32) := by
  exact ⟨rfl, by decide, by decide, by decide, by decide, by decide, by decide, by decide, by decide, by decide⟩

/-- Each case of the wrong lengths, at its boundary. -/
theorem witness_WrongLengthIsIllegal :
    (presenting keyed 0x1#32 (testText.take 31)).inbox = .command (Command.ofBytes 0x1#32 (testText.take 31)) :: [] ∧
      (Command.ofBytes 0x1#32 (testText.take 31)).payload? = some (testText.take 31) ∧
      (Command.ofBytes 0x1#32 (testText.take 31)).len.toNat ≤ keyed.params.lenMax.toNat ∧
      (Command.ofBytes 0x1#32 (testText.take 31)).len.toNat ≠ 32 ∧
      (Command.ofBytes 0x3#32 testText).len.toNat ≠ 128 ∧
      (Command.ofBytes 0x1004#32 [0]).len.toNat ≠ 0 ∧ (Command.ofBytes 0x5#32 (testText.take 7)).len.toNat % 8 ≠ 0 ∧
      (Command.ofBytes 0x6#32 (testText.take 9)).len.toNat ≠ 8 ∧ (Command.ofBytes 0x7#32 []).len.toNat ≠ 8 := by
  exact ⟨rfl, by decide +kernel, by decide +kernel, by decide, by decide, by decide, by decide, by decide, by decide⟩

/-- A DIN with a byte too many, and one with a hole at offset 1. -/
theorem witness_MalformedTransactionFaults :
    ({ keyed with inbox := [.command ⟨0x8#32, 0, [(0, 1)]⟩] } : State).inbox = .command ⟨0x8#32, 0, [(0, 1)]⟩ :: [] ∧
      (0 : BitVec 64).toNat ≤ keyed.params.lenMax.toNat ∧ [(0, (1 : Byte))].length ≠ (0 : BitVec 64).toNat ∧
      (2 : BitVec 64).toNat ≤ keyed.params.lenMax.toNat ∧ 1 < (2 : BitVec 64).toNat ∧
      Memory.readByte [(0, (1 : Byte)), (2, 1)] 1 = none := by
  exact ⟨rfl, by decide, by decide, by decide, by decide, by decide⟩

theorem witness_FormedHostNeverStopsTheEngine :
    HostFormed { keyed with inbox := [.reset, .command (Command.ofBytes 0x00000308#32 [0x92])] } := by
  intro r hr
  rcases List.mem_cons.mp hr with rfl | hr
  · rfl
  · rw [List.mem_singleton.mp hr]; decide

theorem witness_IdleAndResetSteps :
    keyed.inbox = [] ∧ ({ keyedIv with inbox := [.reset] } : State).inbox = .reset :: [] := ⟨rfl, rfl⟩

theorem witness_SetkeybAcceptsExactly32Bytes :
    testKeyBytes.length = 32 ∧ (testKeyBytes.take 31).length ≠ 32 ∧ (testKeyBytes ++ [0]).length ≠ 32 ∧
      ([] : List Byte).length ≠ 32 := by decide

/-- The identity table is of permutations; the zero table is not, by its entries 0 and 1. -/
theorem witness_SetsboxStoresOrRejectsTheTable :
    SubTablesArePermutations identityTable ∧ ¬SubTablesArePermutations zeroTable ∧ small.params.sboxValidate = true := by
  refine ⟨?_, ?_, rfl⟩
  · have h : ∀ (i : Fin 8) (v w : Fin 16), v ≠ w → identityTable[16 * i.val + v.val]? ≠ identityTable[16 * i.val + w.val]? := by
      decide +kernel
    intro i v w hi hv hw hne
    exact h ⟨i, hi⟩ ⟨v, hv⟩ ⟨w, hw⟩ (fun e => hne (congrArg Fin.val e))
  · intro h
    exact h 0 0 1 (by decide) (by decide) (by decide) (by decide) rfl

/-- A register of two blocks takes two and no three; an unbounded one takes any number. -/
theorem witness_SetivReplacesTheIv :
    DepthAdmits small testIv.length ∧ small.params.ivMaxBlocks = some 2 ∧ 2 < [(1 : Block), 2, 3].length ∧
      DepthAdmits keyed 3 :=
  ⟨fun _ h => (by cases h; decide), rfl, by decide, fun _ h => (by cases h)⟩

theorem witness_SetUpCommandsCommute : DepthAdmits small testIv.length := witness_SetivReplacesTheIv.1

theorem witness_PayloadBeyondLenMaxIsRefused :
    (presenting small 0x208#32 (testText.take 9)).inbox = .command (Command.ofBytes 0x208#32 (testText.take 9)) :: [] ∧
      (presenting small 0x208#32 (testText.take 9)).params.lenMax.toNat <
        (Command.ofBytes 0x208#32 (testText.take 9)).len.toNat := by exact ⟨rfl, by decide⟩

theorem witness_NoStepChangesTheParameters :
    step { small with inbox := [.reset] } = .next (State.afterReset small.params 1 []) := rfl

/-- Lanes 0 and 7 of T, from section 3.2. -/
theorem witness_SubstitutionReplacesEachLane :
    0 < 8 ∧ 7 < 8 ∧ (T sboxPresetA 0x10000000).extractLsb' 0 4 = (0xc : Nibble) ∧
      (T sboxPresetA 0x10000000).extractLsb' 28 4 = (0x7 : Nibble) := by decide +kernel

/-- The rotation's boundary bits: 0, 20, 21 and 31 go to 11, 31, 0 and 10. -/
theorem witness_RoundTransformAddsSubstitutesRotates :
    0 < 32 ∧ 31 < 32 ∧ (0 + 11) % 32 = 11 ∧ (20 + 11) % 32 = 31 ∧ (21 + 11) % 32 = 0 ∧ (31 + 11) % 32 = 10 := by decide

theorem witness_EcbSplitsAtChunks :
    (testText.take 8).length % 8 = 0 ∧ ([] : List Byte).length % 8 = 0 ∧ keyedIv.rk = keyed.rk ∧ keyedIv.sbox = keyed.sbox := by
  exact ⟨by decide, by decide, rfl, rfl⟩

theorem witness_CtrAndCfbNeedAnIv : keyed.iv = [] := rfl

theorem witness_CtrAnswersEveryByte :
    keyedIv.iv = 0x1234567890abcdef :: [0x234567890abcdef1] ∧ 0 < (testText.take 9).length ∧
      8 < (testText.take 9).length := by exact ⟨rfl, by decide, by decide⟩

theorem witness_CtrRoundTrip : keyedIv.iv ≠ [] := by decide

theorem witness_CtrOutputOfPrefix : keyedIv.iv ≠ [] := witness_CtrRoundTrip

/-- The input bytes at the boundary of the two-block IV: chunks 0, 1 and 2. -/
theorem witness_CfbAnswersEveryByte :
    keyedIv.iv ≠ [] ∧ 0 < testText.length ∧ 15 / 8 < keyedIv.ivLen ∧ ¬16 / 8 < keyedIv.ivLen ∧ 16 < testText.length := by decide

theorem witness_CfbRoundTrip : keyedIv.iv ≠ [] := witness_CtrRoundTrip

/-- At the boundary: 16 bytes against two blocks. -/
theorem witness_CfbCommandsCoincideOnShortBuffers :
    keyedIv.iv ≠ [] ∧ (testText.take 16).length ≤ 8 * keyedIv.ivLen ∧ ¬(testText.take 17).length ≤ 8 * keyedIv.ivLen := by
  decide

/-- Last chunks of one, seven and eight bytes, after no chunk and after one. -/
theorem witness_MacAnswersTheTag :
    (∀ c ∈ ([] : List (List Byte)), c.length = 8) ∧ (∀ c ∈ [testText.take 8], c.length = 8) ∧
      0 < (testText.take 1).length ∧ (testText.take 1).length ≤ 8 ∧ (testText.take 7).length ≤ 8 ∧
      0 < (testText.take 8).length ∧ (testText.take 8).length ≤ 8 := by decide

theorem witness_OnlyCtrAndCfbReadTheIv :
    (∀ buffer : List Byte, Instr.selsboxA ≠ .cipherEncCtr buffer ∧ Instr.selsboxA ≠ .cipherDecCtr buffer ∧
        Instr.selsboxA ≠ .cipherEncCfb buffer ∧ Instr.selsboxA ≠ .cipherDecCfb buffer) ∧
      (∀ blocks, Instr.selsboxA ≠ .setiv blocks) ∧
      exec .selsboxA keyed = .next ((keyed.writeSbox sboxPresetA).succeed []) := by
  refine ⟨fun _ => ⟨?_, ?_, ?_, ?_⟩, fun _ => ?_, rfl⟩ <;> intro h <;> cases h

/-- A command that succeeds, and one for each error. -/
theorem witness_EachErrorHasItsCommand :
    exec .selsboxA keyed = .next ((keyed.writeSbox sboxPresetA).succeed []) ∧
      exec (.setkeyb []) keyed = .next (keyed.raise .keyLength) ∧
      exec (.cipherEncMac []) keyed = .next (keyed.raise .invalidOpMode) ∧
      exec (.cipherEncCtr []) keyed = .next (keyed.raise .ivEmpty) ∧
      exec (.setiv [1, 2, 3]) small = .next (small.raise .illegalCommand) ∧
      exec (.setsbox zeroTable) small = .next (small.raise .sboxInvalid) := by
  have h : isPermTable zeroTable = false := by decide +kernel
  refine ⟨rfl, rfl, rfl, rfl, rfl, ?_⟩
  show done (setSbox true zeroTable small) = _
  rw [setSbox, h]
  rfl

/-- A buffer that reads both blocks of a new IV, and tables of both kinds for an instance that validates and one that does not. -/
theorem witness_NewConfigurationIsSeenAtOnce :
    testIv ≠ [] ∧ DepthAdmits small testIv.length ∧ (testText.take 16).length = 8 * testIv.length ∧
      ({ keyed with params := ⟨none, 8, false⟩ } : State).params.sboxValidate = false ∧
      SubTablesArePermutations identityTable :=
  ⟨by decide, witness_SetivReplacesTheIv.1, by decide, rfl, witness_SetsboxStoresOrRejectsTheTable.1⟩

theorem witness_CipherCommandsWriteOnlyStatus :
    isCipherOrBlock (.encblk 0) = true ∧ isCipherOrBlock (.cipherDecCfb []) = true := by decide

theorem witness_RepeatedCommandGivesTheSameResponse :
    isCipherOrBlock (.cipherEncMac []) = true ∧ isCipherOrBlock (.cipherEncCtr []) = true ∧
      exec (.cipherEncMac []) keyed = .next (keyed.raise .invalidOpMode) ∧
      exec (.cipherEncCtr []) (keyed.raise .invalidOpMode) = .next (keyed.raise .ivEmpty) := by
  exact ⟨rfl, rfl, rfl, rfl⟩

theorem witness_ConfigurationCommandsWriteTheirOwnRegisters :
    exec .selsboxA zeroKeyed = .next ((zeroKeyed.writeSbox sboxPresetA).succeed []) := rfl

theorem witness_FailureChangesOnlyStatus :
    exec (.setkeyb []) keyed = .next (keyed.raise .keyLength) ∧ (keyed.raise .keyLength).status ≠ 0 := by
  exact ⟨rfl, by decide⟩

theorem witness_FailedCommandLeavesNoTrace :
    exec (.setkeyb []) keyed = .next (keyed.raise .keyLength) ∧ (keyed.raise .keyLength).status ≠ 0 :=
  witness_FailureChangesOnlyStatus

theorem witness_OutputLengthsFollowTheMode :
    (testText.take 9).length + 7 < 2 ^ 64 ∧
      (∃ t, exec (.cipherEncEcb (testText.take 9)) keyedIv = .next t ∧ t.status = 0) ∧
      (∃ t, exec (.cipherDecCtr (testText.take 9)) keyedIv = .next t ∧ t.status = 0) ∧
      (∃ t, exec (.cipherEncCfb (testText.take 9)) keyedIv = .next t ∧ t.status = 0) ∧
      ∃ t, exec (.cipherMacMac (testText.take 9)) keyedIv = .next t ∧ t.status = 0 :=
  ⟨by decide, ⟨_, rfl, rfl⟩, ⟨_, rfl, rfl⟩, ⟨_, rfl, rfl⟩, ⟨_, rfl, rfl⟩⟩

end Sys2Proof.Tests
end

section
/-! PROOFS. What the ten statements of 10_state.md share: how a step keeps a predicate, what a block or CIPHER command does, the write
set of every command, and which fields a command reads. -/

namespace Sys2Proof.Machine

theorem CommandResult.params {s t : State} (h : CommandResult s t) : t.params = s.params :=
  have ⟨_, hparams, _⟩ := h.frame
  hparams

end Sys2Proof.Machine

namespace Sys2Proof.Proofs

open Sys2Proof.Machine Sys2Proof.Safety

/-- How to show that every step keeps a predicate: a reset event keeps it, and so does what a command does once its request is
taken. -/
theorem step_preserves {P : State → Prop} {s t : State}
    (hreset : ∀ rest, P s → P (resetEvent s rest))
    (hcommand : ∀ rest, P s → CommandResult (s.accept rest) t → P t)
    (hs : P s) (h : step s = .next t) : P t := by
  rcases step_cases s t h with ⟨-, rfl⟩ | ⟨rest, -, rfl⟩ | ⟨c, rest, -, hc⟩
  · exact hs
  · exact hreset rest hs
  · exact hcommand rest hs hc

theorem sameRegisters_raise (s : State) (e : ErrorKind) : SameRegisters s (s.raise e) := by
  simp [SameRegisters]

theorem sameRegisters_succeed (s : State) (out : List Byte) : SameRegisters s (s.succeed out) := by
  simp [SameRegisters]

/-- Everything a block or CIPHER command can do: it completes, with an error or with an output. -/
theorem exec_of_isCipherOrBlock (i : Instr) (s : State) (hi : isCipherOrBlock i = true) :
    ∃ t, exec i s = .next t ∧ ((∃ e, t = s.raise e) ∨ ∃ out, t = s.succeed out) := by
  cases i with
  | setkey _ | setkeyb _ | setsbox _ | selsboxA | selsboxB | setiv _ => cases hi
  | encblk _ | decblk _ | cipherEncEcb _ | cipherDecEcb _ => exact ⟨_, rfl, .inr ⟨_, rfl⟩⟩
  | cipherMacEcb _ | cipherMacCtr _ | cipherMacCfb _ | cipherEncMac _ | cipherDecMac _ =>
    exact ⟨_, rfl, .inl ⟨_, rfl⟩⟩
  | cipherEncCtr buffer | cipherDecCtr buffer =>
    exact ⟨_, rfl, (ctrCommand_cases buffer s).imp_left fun h => ⟨_, h⟩⟩
  | cipherEncCfb buffer | cipherDecCfb buffer =>
    exact ⟨_, rfl, (cfbCommand_cases _ buffer s).imp_left fun h => ⟨_, h⟩⟩
  | cipherMacMac buffer => exact ⟨_, rfl, macCommand_cases buffer s⟩

/-- Every block or CIPHER command completes and leaves the registers alone (R36). -/
theorem exec_cipherOrBlock_completes (i : Instr) (s : State) (hi : isCipherOrBlock i = true) :
    ∃ t, exec i s = .next t ∧ SameRegisters s t := by
  obtain ⟨t, h, ⟨e, rfl⟩ | ⟨out, rfl⟩⟩ := exec_of_isCipherOrBlock i s hi
  · exact ⟨_, h, sameRegisters_raise s e⟩
  · exact ⟨_, h, sameRegisters_succeed s out⟩

theorem exec_cipherOrBlock_sameRegisters {i : Instr} {s t : State} (hi : isCipherOrBlock i = true)
    (h : exec i s = .next t) : SameRegisters s t := by
  obtain ⟨u, hu, hsame⟩ := exec_cipherOrBlock_completes i s hi
  cases hu.symm.trans h
  exact hsame

/-- The write set of every command (R36): none, or the one register file of the command's row. -/
theorem exec_writes {i : Instr} {s t : State} (h : exec i s = .next t) :
    SameRegisters s t ∨
      (((∃ key, i = .setkey key) ∨ ∃ bytes, i = .setkeyb bytes) ∧ ∃ key, t = (s.writeKey key).succeed []) ∨
      (((∃ table, i = .setsbox table) ∨ i = .selsboxA ∨ i = .selsboxB) ∧ ∃ table, t = (s.writeSbox table).succeed []) ∨
      ∃ blocks, i = .setiv blocks ∧ t = (s.writeIv blocks).succeed [] := by
  cases i with
  | setkey key => exact .inr (.inl ⟨.inl ⟨key, rfl⟩, key, ((done_eq_next _ _).mp h).symm⟩)
  | setkeyb bytes =>
    rw [← (done_eq_next _ _).mp h]
    split
    · exact .inr (.inl ⟨.inr ⟨bytes, rfl⟩, _, rfl⟩)
    · exact .inl (sameRegisters_raise s _)
  | setsbox table =>
    rw [← (done_eq_next _ _).mp h]
    rcases setSbox_cases s.params.sboxValidate table s with h' | h' <;> rw [h']
    · exact .inl (sameRegisters_raise s _)
    · exact .inr (.inr (.inl ⟨.inl ⟨table, rfl⟩, table, rfl⟩))
  | selsboxA => exact .inr (.inr (.inl ⟨.inr (.inl rfl), _, ((done_eq_next _ _).mp h).symm⟩))
  | selsboxB => exact .inr (.inr (.inl ⟨.inr (.inr rfl), _, ((done_eq_next _ _).mp h).symm⟩))
  | setiv blocks =>
    rw [← (done_eq_next _ _).mp h]
    rcases setIv_cases s.params.ivMaxBlocks blocks s with ⟨-, h'⟩ | h' <;> rw [h']
    · exact .inr (.inr (.inr ⟨blocks, rfl, rfl⟩))
    · exact .inl (sameRegisters_raise s _)
  | _ => exact .inl (exec_cipherOrBlock_sameRegisters rfl h)

/-- No command reads the last response: each field it reads is one that the response fields leave alone. -/
theorem exec_withResponse (i : Instr) (s : State) (status : BitVec 8) (olen : BitVec 64) (dout : Memory) :
    exec i { s with status := status, olen := olen, dout := dout } = exec i s := by
  cases i <;> rfl

/-- States that differ in the response alone: a command does the same in both. -/
theorem exec_eq_of_sameRegisters {s t : State} (i : Instr) (h : SameRegisters s t) : exec i t = exec i s := by
  obtain ⟨key, rk, sbox, iv, status, olen, dout, inbox, params, resets⟩ := t
  obtain ⟨rfl, rfl, rfl, rfl, rfl, rfl, rfl⟩ := h
  exact exec_withResponse i s status olen dout

end Sys2Proof.Proofs
end

section
/-! PROOFS. The statements of 10_state.md about what reset establishes and every step keeps: O1 to O4, O60. -/

namespace Sys2Proof.Machine

open Sys2Proof.Safety

/-- The schedule at its first three passes over the key (R110). -/
theorem getElem_schedule_of_lt_24 (key : KeyWords) (p : Nat) (h : p < 24) : (schedule key)[p] = key[p % 8] := by
  simp [schedule, kidx, h]

/-- The schedule at its last pass, over the key in reverse (R110). -/
theorem getElem_schedule_of_24_le (key : KeyWords) (p : Nat) (h24 : 24 ≤ p) (h : p < 32) :
    (schedule key)[p] = key[31 - p] := by
  simp [schedule, kidx, Nat.not_lt.mpr h24, Nat.mod_eq_of_lt (show 31 - p < 8 by omega)]

theorem statusDefined_errorCode (e : ErrorKind) : statusDefined (errorCode e) = true := by
  cases e <;> rfl

theorem responseFormed_raise (s : State) (e : ErrorKind) : ResponseFormed (s.raise e) :=
  ⟨statusDefined_errorCode e, rfl, rfl, rfl, fun _ => rfl⟩

theorem responseFormed_succeed (s : State) (out : List Byte) : ResponseFormed (s.succeed out) :=
  ⟨rfl, Memory.wf_ofBytes out, by simp [Memory.offsets_ofBytes], by simp, fun h => absurd rfl h⟩

/-- Whatever a command leaves has a formed response, whatever the response before it was. -/
theorem CommandResult.responseFormed {s t : State} (h : CommandResult s t) : ResponseFormed t := by
  rcases h with ⟨e, rfl⟩ | ⟨out, rfl⟩ | ⟨key, rfl⟩ | ⟨table, rfl⟩ | ⟨blocks, -, rfl⟩
  · exact responseFormed_raise s e
  all_goals exact responseFormed_succeed _ _

/-- KEY and RK are written together (R112), so a command keeps them consistent. -/
theorem CommandResult.roundKeysConsistent {s t : State} (h : CommandResult s t) (hs : RoundKeysConsistent s) :
    RoundKeysConsistent t := by
  rcases h with ⟨e, rfl⟩ | ⟨out, rfl⟩ | ⟨key, rfl⟩ | ⟨table, rfl⟩ | ⟨blocks, -, rfl⟩
  case inr.inr.inl => exact rfl
  all_goals exact hs

/-- SETIV writes only what IV_MAX_BLOCKS admits (R117), so a command keeps IVLEN within it. -/
theorem CommandResult.depthAdmits {s t : State} (h : CommandResult s t) (hs : DepthAdmits s s.ivLen) :
    DepthAdmits t t.ivLen := by
  rcases h with ⟨e, rfl⟩ | ⟨out, rfl⟩ | ⟨key, rfl⟩ | ⟨table, rfl⟩ | ⟨blocks, hfits, rfl⟩
  case inr.inr.inr.inr => exact (ivFits_iff s blocks.length).mp hfits
  all_goals exact hs

theorem CommandResult.inv {s t : State} (h : CommandResult s t) (hs : Inv s) : Inv t :=
  have ⟨hkeys, hdepth, _⟩ := hs
  ⟨h.roundKeysConsistent hkeys, h.depthAdmits hdepth, h.responseFormed⟩

theorem inv_afterReset (params : Params) (n : Nat) (inbox : List Request) : Inv (State.afterReset params n inbox) :=
  ⟨rfl, fun _ _ => Nat.zero_le _, rfl, rfl, rfl, rfl, fun h => absurd rfl h⟩

end Sys2Proof.Machine

namespace Sys2Proof.Proofs

open Sys2Proof.Machine Sys2Proof.Safety

/-- Settles O4: a reset event establishes the invariant, and each of its three parts is kept by every result of a command. -/
theorem everyStepKeepsTheInvariant : Obligations.EveryStepKeepsTheInvariant := by
  intro s t hs h
  exact step_preserves (P := Inv) (fun rest _ => inv_afterReset s.params (s.resets + 1) rest)
    (fun _ hs hc => hc.inv hs) hs h

/-- Settles O3: consistency is kept by a step, and the schedule is then read at each index. -/
theorem everyStepKeepsRoundKeysConsistent : Obligations.EveryStepKeepsRoundKeysConsistent := by
  intro s t hs h
  have ht : t.rk = schedule t.key := step_preserves (P := RoundKeysConsistent) (fun _ _ => rfl)
    (fun _ hs hc => hc.roundKeysConsistent hs) hs h
  rw [ht]
  exact ⟨getElem_schedule_of_lt_24 t.key, getElem_schedule_of_24_le t.key⟩

/-- Settles O60: a command leaves the parameters alone, and a reset event starts from the ones before it. -/
theorem noStepChangesTheParameters : Obligations.NoStepChangesTheParameters := by
  intro s t h
  exact step_preserves (P := fun u => u.params = s.params) (fun _ _ => rfl)
    (fun _ hs hc => hc.params.trans hs) rfl h

/-- Settles O1: each clause is a field of the reset state. -/
theorem resetLeavesTheSpecifiedRegisters : Obligations.ResetLeavesTheSpecifiedRegisters :=
  ⟨rfl, fun _ => ⟨rfl, rfl, rfl, rfl, rfl, rfl⟩⟩

/-- Settles O2: the invariant of the state after any reset event, at the first one. -/
theorem resetMeetsTheInvariant : Obligations.ResetMeetsTheInvariant :=
  ⟨inv_afterReset Config.defaultParams 0 [], fun params => inv_afterReset params 0 []⟩

end Sys2Proof.Proofs
end

section
/-! PROOFS. The statements of 10_state.md about which registers a command writes and reads: O45, O49, O50, O52, O54. -/

namespace Sys2Proof.Proofs

open Sys2Proof.Machine Sys2Proof.Safety

/-- Settles O49: a block or CIPHER command completes with an error or an output, and neither touches a register. -/
theorem cipherCommandsWriteOnlyStatus : Obligations.CipherCommandsWriteOnlyStatus := exec_cipherOrBlock_completes

/-- Settles O50, by the write set of the command. -/
theorem configurationCommandsWriteTheirOwnRegisters : Obligations.ConfigurationCommandsWriteTheirOwnRegisters := by
  intro i s t h
  have hframe := (exec_cases i s t h).frame
  rcases exec_writes h with ⟨hkey, hrk, hsbox, hiv, -⟩ | ⟨hi, key, rfl⟩ | ⟨hi, table, rfl⟩ | ⟨blocks, hi, rfl⟩
  · exact ⟨by simp [hkey, hrk], by simp [hsbox], by simp [hiv], hframe⟩
  · exact ⟨fun _ => hi, by simp, by simp, hframe⟩
  · exact ⟨by simp, fun _ => hi, by simp, hframe⟩
  · exact ⟨by simp, by simp, fun _ => ⟨blocks, hi⟩, hframe⟩

/-- Settles O52, which is `exec_withResponse`. -/
theorem noCommandReadsTheResponse : Obligations.NoCommandReadsTheResponse := exec_withResponse

theorem setSbox_writeIv (validate : Bool) (table : SboxTable) (s : State) (iv : List Block) :
    setSbox validate table (s.writeIv iv) = (setSbox validate table s).writeIv iv := by
  unfold setSbox; split <;> rfl

theorem macCommand_writeIv (buffer : List Byte) (s : State) (iv : List Block) :
    macCommand buffer (s.writeIv iv) = (macCommand buffer s).writeIv iv := by
  simp only [macCommand, macEmptyResponse, State.writeIv_rk, State.writeIv_sbox]
  split
  · split <;> rfl
  · rfl

/-- Settles O45: writing the IV commutes with every command that neither reads nor writes it. The three commands with a case
distinction make it on their operand, the parameters, RK or SBOX. -/
theorem onlyCtrAndCfbReadTheIv : Obligations.OnlyCtrAndCfbReadTheIv := by
  intro i s t iv hctrcfb hsetiv h
  show exec i (s.writeIv iv) = .next (t.writeIv iv)
  cases i with
  | setiv blocks => exact absurd rfl (hsetiv blocks)
  | cipherEncCtr buffer | cipherDecCtr buffer | cipherEncCfb buffer | cipherDecCfb buffer =>
    simpa using hctrcfb buffer
  | setkeyb bytes =>
    rw [← (done_eq_next _ _).mp h]
    simp only [exec, execSetkeyb, done]
    split <;> rfl
  | setsbox table =>
    rw [← (done_eq_next _ _).mp h]
    exact congrArg done (setSbox_writeIv s.params.sboxValidate table s iv)
  | cipherMacMac buffer =>
    rw [← (done_eq_next _ _).mp h]
    exact congrArg done (macCommand_writeIv buffer s iv)
  | _ => rw [← (done_eq_next _ _).mp h]; rfl

theorem setSbox_setSbox (validate : Bool) (table : SboxTable) (s : State) :
    setSbox validate table (setSbox validate table s) = setSbox validate table s := by
  unfold setSbox; split <;> rfl

theorem setIv_setIv (depth : Option Nat) (blocks : List Block) (s : State) :
    setIv depth blocks (setIv depth blocks s) = setIv depth blocks s := by
  unfold setIv; split <;> rfl

/-- A command that follows itself finds what it needs and writes the same again. -/
theorem exec_exec_same {i : Instr} {s t : State} (h : exec i s = .next t) : exec i t = .next t := by
  have hparams : t.params = s.params := (exec_cases i s t h).params
  cases i with
  | setkey _ | selsboxA | selsboxB => rw [← (done_eq_next _ _).mp h]; rfl
  | setkeyb bytes =>
    rw [← (done_eq_next _ _).mp h]
    simp only [exec, execSetkeyb, done]
    split <;> rfl
  | setsbox table =>
    show done (setSbox t.params.sboxValidate table t) = _
    rw [hparams, ← (done_eq_next _ _).mp h, setSbox_setSbox]; rfl
  | setiv blocks =>
    show done (setIv t.params.ivMaxBlocks blocks t) = _
    rw [hparams, ← (done_eq_next _ _).mp h, setIv_setIv]; rfl
  | _ => rw [exec_eq_of_sameRegisters _ (exec_cipherOrBlock_sameRegisters rfl h), h]

/-- Settles O54: a configuration command writes the same again, and a block or CIPHER command leaves the registers that the next
one reads. -/
theorem repeatedCommandGivesTheSameResponse : Obligations.RepeatedCommandGivesTheSameResponse := by
  refine ⟨fun _ _ _ => exec_exec_same, fun i j s t u hi hj h hu => ?_⟩
  calc exec i u = exec i t := exec_eq_of_sameRegisters i (exec_cipherOrBlock_sameRegisters hj hu)
    _ = exec i s := exec_eq_of_sameRegisters i (exec_cipherOrBlock_sameRegisters hi h)
    _ = .next t := h

end Sys2Proof.Proofs
end

section
/-! PROOFS. Presenting a command: the encoding decodes to the command it came from, and what reading
a transaction makes of it. -/

namespace Sys2Proof

open Sys2Proof.Machine

theorem fieldOp_commandWord (opc : BitVec 8) (op mode : BitVec 2) (sel : BitVec 1) :
    fieldOp (commandWord opc op mode sel) = op := by
  apply BitVec.eq_of_toNat_eq
  simp only [fieldOp, commandWord, BitVec.extractLsb'_toNat, BitVec.toNat_ofNat, Nat.shiftRight_eq_div_pow]
  omega

theorem fieldMode_commandWord (opc : BitVec 8) (op mode : BitVec 2) (sel : BitVec 1) :
    fieldMode (commandWord opc op mode sel) = mode := by
  apply BitVec.eq_of_toNat_eq
  simp only [fieldMode, commandWord, BitVec.extractLsb'_toNat, BitVec.toNat_ofNat, Nat.shiftRight_eq_div_pow]
  omega

theorem assemble_cipher {opc : BitVec 8} {o m : BitVec 2} {sel : BitVec 1} {op : CipherOp} (din : List Byte)
    (hop : CipherOp.ofBits o = some op) :
    assemble .cipher (commandWord opc o m sel) din = .instr (cipherInstr op (CipherMode.ofBits m) din) := by
  simp [assemble, fieldOp_commandWord, fieldMode_commandWord, hop]

/-- After the checks of R88 the operands of an encoded command are those of the command (R86, R92). -/
theorem Instr.assemble_encoded (i : Instr) : assemble i.opcode i.word i.payload = .instr i := by
  cases i with
  | setkey key => simp [Instr.opcode, Instr.payload, assemble]
  | setsbox table => simp [Instr.opcode, Instr.payload, assemble]
  | setiv blocks => simp [Instr.opcode, Instr.payload, assemble]
  | encblk block | decblk block => simp [Instr.opcode, Instr.payload, assemble]
  | setkeyb bytes | selsboxA | selsboxB => rfl
  | cipherEncEcb buffer | cipherEncCtr buffer | cipherEncCfb buffer | cipherEncMac buffer =>
    exact assemble_cipher (op := .encrypt) buffer rfl
  | cipherDecEcb buffer | cipherDecCtr buffer | cipherDecCfb buffer | cipherDecMac buffer =>
    exact assemble_cipher (op := .decrypt) buffer rfl
  | cipherMacEcb buffer | cipherMacCtr buffer | cipherMacCfb buffer | cipherMacMac buffer =>
    exact assemble_cipher (op := .messageAuthentication) buffer rfl

/-- Decoding the encoding of a command gives the command back. -/
theorem decode_encode (i : Instr) : decode (encode i).1 (encode i).2 = .instr i := by
  simp [decode, encode, i.word_reserved, i.word_opcode, i.word_no_stray, i.length_allowed, i.assemble_encoded]

end Sys2Proof

namespace Sys2Proof.Machine

/-- Reading a transaction within LEN_MAX that decodes to a command. -/
theorem fetch_of_decode {p : Params} {c : Command} {din : List Byte} {i : Instr} (hlen : c.len.toNat ≤ p.lenMax.toNat)
    (hdin : c.payload? = some din) (hi : decode c.cmd din = .instr i) : fetch p c = .instr i := by
  simp [fetch, fetchWithin, withinCapacity, hlen, hdin, hi]

/-- Reading a transaction beyond LEN_MAX (U9). -/
theorem fetch_of_lenMax_lt {p : Params} {c : Command} (hlen : p.lenMax.toNat < c.len.toNat) : fetch p c = .tooLong := by
  simp [fetch, fetchWithin, withinCapacity, Nat.not_le.mpr hlen]

theorem step_of_fetch_instr {s : State} {c : Command} {rest : List Request} {i : Instr}
    (hnext : s.inbox = .command c :: rest) (hi : fetch s.params c = .instr i) : step s = exec i (s.accept rest) := by
  have h := step_command s c rest hnext
  rw [hi] at h
  exact h

theorem step_of_fetch_tooLong {s : State} {c : Command} {rest : List Request}
    (hnext : s.inbox = .command c :: rest) (hc : fetch s.params c = .tooLong) :
    step s = .refused .payloadBeyondLenMax := by
  have h := step_command s c rest hnext
  rw [hc] at h
  exact h

/-- LEN of the transaction that carries a command within LEN_MAX, which 64 bits can state. -/
theorem Command.len_ofInstr {i : Instr} {lenMax : BitVec 64} (h : i.fits lenMax.toNat = true) :
    (Command.ofInstr i).len.toNat = i.payloadLength := by
  have hle : i.payloadLength ≤ lenMax.toNat := by simpa [Instr.fits] using h
  show (BitVec.ofNat 64 i.payload.length).toNat = _
  rw [i.length_payload, BitVec.toNat_ofNat, Nat.mod_eq_of_lt (hle.trans_lt lenMax.isLt)]

/-- The transaction that carries a command within LEN_MAX is read as that command. -/
theorem fetch_ofInstr {i : Instr} {p : Params} (h : i.fits p.lenMax.toNat = true) :
    fetch p (Command.ofInstr i) = .instr i := by
  have hle : i.payloadLength ≤ p.lenMax.toNat := by simpa [Instr.fits] using h
  have hpayload : (Command.ofInstr i).payload? = some i.payload :=
    Command.payload?_ofBytes _ _ (i.length_payload ▸ hle.trans_lt p.lenMax.isLt)
  exact fetch_of_decode ((Command.len_ofInstr h).trans_le hle) hpayload (decode_encode i)

end Sys2Proof.Machine
end

section
/-! PROOFS. Responses: what a command that succeeds delivers, and its length in each mode (20_memory.md R60). -/

namespace Sys2Proof.Machine

open Sys2Proof.Safety

theorem olenOf_of_lt {n : Nat} (h : n < 2 ^ 64) : olenOf n = BitVec.ofNat 64 n := if_pos h

/-- No error's code is that of OK (R211). -/
theorem errorCode_ne_zero (e : ErrorKind) : errorCode e ≠ 0 := by
  cases e <;> decide

theorem raise_status_ne_zero (s : State) (e : ErrorKind) : (s.raise e).status ≠ 0 := errorCode_ne_zero e

/-- A CTR command that succeeds answers as many bytes as it got (R60). -/
theorem ctrCommand_olen {buffer : List Byte} {s : State} (h : (ctrCommand buffer s).status = 0) :
    (ctrCommand buffer s).olen = olenOf buffer.length := by
  revert h
  unfold ctrCommand
  cases s.iv with
  | nil => exact fun h => absurd h (raise_status_ne_zero s _)
  | cons b bs => exact fun _ => congrArg olenOf (length_ctr _ _ buffer)

/-- A CFB command that succeeds answers as many bytes as it got (R60). -/
theorem cfbCommand_olen {op : CipherOp} {buffer : List Byte} {s : State} (h : (cfbCommand op buffer s).status = 0) :
    (cfbCommand op buffer s).olen = olenOf buffer.length := by
  revert h
  unfold cfbCommand
  cases s.iv with
  | nil => exact fun h => absurd h (raise_status_ne_zero s _)
  | cons b bs => exact fun _ => congrArg olenOf (length_cfb _ _ _ buffer)

/-- A MAC that succeeds answers a tag of 4 bytes (R60), the open outcome of an empty buffer among them (R187). -/
theorem macCommand_olen {buffer : List Byte} {s : State} (h : (macCommand buffer s).status = 0) :
    (macCommand buffer s).olen = olenOf 4 := by
  revert h
  unfold macCommand macEmptyResponse
  cases chunks buffer with
  | cons c cs => exact fun _ => congrArg olenOf (length_macTag _)
  | nil =>
    cases Config.macEmpty s.rk s.sbox with
    | tag t => exact fun _ => congrArg olenOf (length_bytes4 t)
    | illegalCommand => exact fun h => absurd h (raise_status_ne_zero s _)

/-- What a successful command answers is its output. -/
theorem delivers_succeed (s : State) (out : List Byte) : Delivers (s.succeed out) out :=
  ⟨rfl, rfl, Memory.readByte_ofBytes out⟩

end Sys2Proof.Machine
end

section
/-! PROOFS. The bytes of a block in their places (20_memory.md R58), and CFB over the blocks that the register starts with. -/

namespace Sys2Proof.Machine

open Sys2Proof.Safety

theorem getElem?_beBytes (n v j : Nat) (h : j < n) : (beBytes n v)[j]? = some (BitVec.ofNat 8 (v / 256 ^ (n - 1 - j))) := by
  induction n generalizing j with
  | zero => omega
  | succ n ih =>
    cases j with
    | zero => simp [beBytes]
    | succ j =>
      rw [beBytes, List.getElem?_cons_succ, ih j (by omega), show n + 1 - 1 - (j + 1) = n - 1 - j by omega]

/-- The bytes of a block in their order (R11). -/
theorem getElem?_bytes8 (v : Block) (j : Nat) (h : j < 8) : (bytes8 v)[j]? = some (byteOf v j) := by
  rw [bytes8, getElem?_beBytes 8 _ j h, byteOf, BitVec.extractLsb', Nat.shiftRight_eq_div_pow, pow_mul,
    show 8 - 1 - j = 7 - j by omega, show 2 ^ 8 = 256 from rfl]

theorem byteOf_xor (v w : Block) (j : Nat) : byteOf (v ^^^ w) j = byteOf v j ^^^ byteOf w j := BitVec.extractLsb'_xor

/-- A chunk's bytes are the first of its block (R58). -/
theorem byteOf_blockOf (chunk : List Byte) (h8 : chunk.length ≤ 8) (j : Nat) (h : j < chunk.length) :
    byteOf (blockOf chunk) j = chunk[j] := by
  have hbyte := getElem?_bytes8 (blockOf chunk) j (by omega)
  rw [bytes8_blockOf chunk h8, pad0, List.getElem?_append_left h, List.getElem?_eq_getElem h] at hbyte
  exact (Option.some.inj hbyte).symm

/-- A byte of what a keystream block makes of a chunk (R58, R163, R173). -/
theorem getElem?_first_xor_blockOf (x : Block) (chunk : List Byte) (h8 : chunk.length ≤ 8) (j : Nat) (h : j < chunk.length) :
    (first chunk.length (bytes8 (x ^^^ blockOf chunk)))[j]? = some (chunk[j] ^^^ byteOf x j) := by
  rw [first, List.getElem?_take_of_lt h, getElem?_bytes8 _ j (by omega), byteOf_xor,
    byteOf_blockOf chunk h8 j h, BitVec.xor_comm]

/-- The register as the sequence of its blocks, front first (R170). -/
def ShiftReg.blocks (reg : ShiftReg) : List Block := reg.front :: reg.rest

/-- Block `i + 1` of the register is its block `i` after a push, as long as that is not the block pushed. -/
theorem ShiftReg.getD_blocks_popPush (reg : ShiftReg) (b : Block) (i : Nat) (h : i < reg.rest.length) :
    (reg.popPush b).blocks.getD i 0 = reg.blocks.getD (i + 1) 0 := by
  have hblocks : (reg.popPush b).blocks = reg.rest ++ [b] := reg.popPush_blocks b
  rw [hblocks, blocks, List.getD_append _ _ _ _ h, List.getD_cons_succ]

theorem ShiftReg.length_blocks_popPush (reg : ShiftReg) (b : Block) :
    (reg.popPush b).blocks.length = reg.blocks.length :=
  congrArg (· + 1) (reg.length_popPush b)

/-- While the register still holds blocks of the IV, CFB's keystream is those blocks encrypted, whatever is pushed behind them
(R172, R173). -/
theorem getElem?_cfb_within_register (enc : Block → Block) (op : CipherOp) (reg : ShiftReg) (buffer : List Byte)
    (hreg : buffer.length ≤ 8 * reg.blocks.length) (k : Nat) (h : k < buffer.length) :
    (cfb enc op reg buffer)[k]? = some (buffer[k] ^^^ byteOf (enc (reg.blocks.getD (k / 8) 0)) (k % 8)) := by
  unfold cfb
  induction buffer using chunk_induction generalizing reg k with
  | nil => cases h
  | short c h0 h8 =>
    rw [chunks_short c h0 h8.le, cfbChunks_cons, cfbChunks_nil, List.append_nil,
      getElem?_first_xor_blockOf _ c h8.le k h, Nat.div_eq_of_lt (h.trans h8), Nat.mod_eq_of_lt (h.trans h8)]
    rfl
  | full c r hc ih =>
    rw [chunks_append c r hc, cfbChunks_cons]
    by_cases hk : k < 8
    · rw [List.getElem?_append_left (by simp [hc, hk]), getElem?_first_xor_blockOf _ c hc.le k (by omega),
        Nat.div_eq_of_lt hk, Nat.mod_eq_of_lt hk, List.getElem_append_left (by omega)]
      rfl
    · obtain ⟨k, rfl⟩ : ∃ m, k = 8 + m := ⟨k - 8, by omega⟩
      rw [List.length_append, hc] at hreg h
      have hr : r.length ≤ 8 * reg.rest.length := by
        rw [ShiftReg.blocks, List.length_cons] at hreg
        omega
      have hrest (b : Block) := ih (reg.popPush b) (by rw [reg.length_blocks_popPush]; omega) k (by omega)
      simp only [reg.getD_blocks_popPush _ (k / 8) (by omega)] at hrest
      rw [List.getElem?_append_right (by simp [hc]), List.getElem_append_right (by omega)]
      simp [hc, hrest, Nat.add_div_left k (show 0 < 8 by omega)]

end Sys2Proof.Machine
end

section
/-! PROOFS. Configuration commands that succeed, and a command after one that did. -/

namespace Sys2Proof.Machine

open Sys2Proof.Safety

theorem getElem?_subTable (table : SboxTable) (i v : Nat) (hv : v < 16) : (subTable table i)[v]? = table[16 * i + v]? := by
  rw [subTable, List.getElem?_take_of_lt hv, List.getElem?_drop, Vector.getElem?_toList]

theorem length_subTable (table : SboxTable) (i : Nat) (hi : i < 8) : (subTable table i).length = 16 := by
  simp [subTable]
  omega

/-- The check of SETSBOX is what the spec's `perm` says (R115). -/
theorem isPermTable_iff (table : SboxTable) : isPermTable table = true ↔ SubTablesArePermutations table := by
  simp only [isPermTable, List.all_eq_true, List.mem_range, decide_eq_true_eq, List.nodup_iff_getElem?_ne_getElem?]
  constructor
  · intro h i v w hi hv hw hne
    rw [← getElem?_subTable table i v hv, ← getElem?_subTable table i w hw]
    rcases Nat.lt_or_gt_of_ne hne with hlt | hlt
    · exact h i hi v w hlt (by rwa [length_subTable table i hi])
    · exact (h i hi w v hlt (by rwa [length_subTable table i hi])).symm
  · intro h i hi v w hlt hw
    rw [length_subTable table i hi] at hw
    rw [getElem?_subTable table i v (hlt.trans hw), getElem?_subTable table i w hw]
    exact h i v w hi (hlt.trans hw) hw hlt.ne

/-- SETSBOX without a check, or of a table that passes it. -/
theorem setSbox_of_admitted {validate : Bool} {table : SboxTable} (s : State)
    (h : validate = false ∨ SubTablesArePermutations table) :
    setSbox validate table s = (s.writeSbox table).succeed [] := by
  rw [← isPermTable_iff] at h
  rcases h with h | h <;> simp [setSbox, h]

theorem exec_setsbox_of_admitted {table : SboxTable} {s : State}
    (h : s.params.sboxValidate = false ∨ SubTablesArePermutations table) :
    exec (.setsbox table) s = .next ((s.writeSbox table).succeed []) :=
  congrArg done (setSbox_of_admitted s h)

theorem exec_setiv_of_depthAdmits {blocks : List Block} {s : State} (h : DepthAdmits s blocks.length) :
    exec (.setiv blocks) s = .next ((s.writeIv blocks).succeed []) :=
  congrArg done (setIv_of_depthAdmits blocks s h)

theorem length_keyPayload (key : KeyWords) : (keyPayload key).length = 32 := (Instr.setkey key).length_payload

/-- SETKEYB of a key's 32 bytes does what SETKEY does (R114). -/
theorem exec_setkeyb_keyPayload (key : KeyWords) (s : State) :
    exec (.setkeyb (keyPayload key)) s = .next ((s.writeKey key).succeed []) := by
  have h : execSetkeyb (keyPayload key) s = done ((s.writeKey (keyWordsOf (keyPayload key))).succeed []) :=
    congrArg done (if_pos (length_keyPayload key))
  rwa [keyWordsOf_keyPayload] at h

/-- CIPHER.ENC.CFB with an IV. -/
theorem exec_cipherEncCfb_of_iv {s : State} {b : Block} {bs : List Block} (hiv : s.iv = b :: bs) (buffer : List Byte) :
    exec (.cipherEncCfb buffer) s = .next (s.succeed (cfb s.encryptBlock .encrypt ⟨b, bs⟩ buffer)) := by
  show done (cfbCommand .encrypt buffer s) = _
  rw [cfbCommand, hiv]
  rfl

end Sys2Proof.Machine

namespace Sys2Proof.Proofs

open Sys2Proof.Machine Sys2Proof.Safety

/-- A command does not see the response of the one before it. -/
theorem exec_succeed (j : Instr) (s : State) (out : List Byte) : exec j (s.succeed out) = exec j s :=
  exec_withResponse j s statusOk (olenOf out.length) (Memory.ofBytes out)

end Sys2Proof.Proofs
end

section
/-! PROOFS. The statements of 20_memory.md: O5, O6, O55, O56, O59. -/

namespace Sys2Proof.Proofs

open Sys2Proof.Machine Sys2Proof.Safety

/-- Settles O5: the transaction is read as the command it decodes to. -/
theorem stepExecutesTheDecodedCommand : Obligations.StepExecutesTheDecodedCommand := by
  intro s c rest din i hnext hlen hdin hi _
  exact step_of_fetch_instr hnext (fetch_of_decode hlen hdin hi)

/-- Settles O59: the length is checked before the payload is looked at. -/
theorem payloadBeyondLenMaxIsRefused : Obligations.PayloadBeyondLenMaxIsRefused := by
  intro s c rest hnext hlen
  exact step_of_fetch_tooLong hnext (fetch_of_lenMax_lt hlen)

/-- Settles O6: the transaction that carries a command is read as that command. -/
theorem stepOfAnEncodedCommand : Obligations.StepOfAnEncodedCommand := by
  intro i s rest hfits hnext
  exact step_of_fetch_instr hnext (fetch_ofInstr hfits)

/-- Settles O55, by the length of what each mode's controller answers. -/
theorem outputLengthsFollowTheMode : Obligations.OutputLengthsFollowTheMode := by
  intro buffer s t hlen hok
  have hsame : olenOf buffer.length = BitVec.ofNat 64 buffer.length := olenOf_of_lt (by omega)
  refine ⟨?ecb, ?stream, ?mac⟩
  case ecb =>
    have hecb (f : Block → Block) : olenOf (ecb f buffer).length = BitVec.ofNat 64 (8 * ((buffer.length + 7) / 8)) := by
      rw [length_ecb, chunkCount, olenOf_of_lt (by omega)]
    rintro (h | h) <;> cases h
    · exact hecb s.encryptBlock
    · exact hecb s.decryptBlock
  case stream =>
    rintro (h | h | h | h) <;> cases h
    · exact (ctrCommand_olen hok).trans hsame
    · exact (ctrCommand_olen hok).trans hsame
    · exact (cfbCommand_olen hok).trans hsame
    · exact (cfbCommand_olen hok).trans hsame
  case mac =>
    intro h
    cases h
    exact (macCommand_olen hok).trans (olenOf_of_lt (by omega))

/-- Settles O56: each configuration command leaves the state with its registers replaced and a response, which no command reads;
the rest is what the block commands and CFB do in such a state. -/
theorem newConfigurationIsSeenAtOnce : Obligations.NewConfigurationIsSeenAtOnce := by
  refine ⟨fun j s => ⟨fun key => ?setkey, fun key => ?setkeyb, fun table h => ?setsbox, ?selsboxA, ?selsboxB,
    fun blocks h => ?setiv⟩, fun key b s => ?newKey, fun table b s h => ?newTable,
    fun blocks buffer s hne hdepth hlen => ?newIv⟩
  case setkey => exact ⟨_, rfl, exec_succeed j (s.writeKey key) []⟩
  case setkeyb => exact ⟨_, exec_setkeyb_keyPayload key s, exec_succeed j (s.writeKey key) []⟩
  case setsbox => exact ⟨_, exec_setsbox_of_admitted h, exec_succeed j (s.writeSbox table) []⟩
  case selsboxA => exact ⟨_, rfl, exec_succeed j (s.writeSbox sboxPresetA) []⟩
  case selsboxB => exact ⟨_, rfl, exec_succeed j (s.writeSbox Config.sboxPresetB) []⟩
  case setiv => exact ⟨_, exec_setiv_of_depthAdmits h, exec_succeed j (s.writeIv blocks) []⟩
  case newKey => exact ⟨_, _, _, rfl, rfl, delivers_succeed _ _, rfl, delivers_succeed _ _⟩
  case newTable =>
    exact ⟨_, _, _, exec_setsbox_of_admitted h, rfl, delivers_succeed _ _, rfl, delivers_succeed _ _⟩
  case newIv =>
    obtain ⟨f, fs, rfl⟩ := List.exists_cons_of_ne_nil hne
    exact ⟨_, _, _, exec_setiv_of_depthAdmits hdepth, exec_cipherEncCfb_of_iv rfl buffer, delivers_succeed _ _,
      getElem?_cfb_within_register (encrypt s.rk s.sbox) .encrypt ⟨f, fs⟩ buffer hlen.le⟩

end Sys2Proof.Proofs
end

section
/-! PROOFS. The fields of a command word: as the spec's masks read them (30_encoding.md R81), and the word they make up. -/

namespace Sys2Proof

/-- A word under the mask of `w` bits from bit `p` is the field there, in its place. -/
theorem and_mask (cmd : BitVec 32) (p w : Nat) :
    cmd &&& ((BitVec.allOnes w).setWidth 32 <<< p) = (cmd.extractLsb' p w).setWidth 32 <<< p := by
  ext i hi
  by_cases hp : i < p
  · simp [hp]
  · simp [hp, Nat.add_sub_cancel' (Nat.not_lt.mp hp), BitVec.getLsbD_eq_getElem hi, Bool.and_comm]

/-- A field has a value exactly when the word has it under the field's mask. -/
theorem extractLsb'_eq_iff_and_mask (cmd : BitVec 32) (p w : Nat) (h : p + w ≤ 32) (v : BitVec w) :
    cmd.extractLsb' p w = v ↔ cmd &&& ((BitVec.allOnes w).setWidth 32 <<< p) = v.setWidth 32 <<< p := by
  rw [and_mask]
  refine ⟨fun hv => by rw [hv], fun hv => ?_⟩
  ext i hi
  have hbit := congrArg (·.getLsbD (p + i)) hv
  simpa [hi, show p + i < 32 by omega, show i < 32 by omega] using hbit

theorem fieldOp_eq_iff (cmd : BitVec 32) (op : BitVec 2) :
    fieldOp cmd = op ↔ cmd &&& 0x300#32 = op.setWidth 32 <<< 8 :=
  extractLsb'_eq_iff_and_mask cmd 8 2 (by decide) op

theorem fieldMode_eq_iff (cmd : BitVec 32) (mode : BitVec 2) :
    fieldMode cmd = mode ↔ cmd &&& 0xC00#32 = mode.setWidth 32 <<< 10 :=
  extractLsb'_eq_iff_and_mask cmd 10 2 (by decide) mode

theorem fieldSel_eq_iff (cmd : BitVec 32) (sel : BitVec 1) :
    fieldSel cmd = sel ↔ cmd &&& 0x1000#32 = sel.setWidth 32 <<< 12 :=
  extractLsb'_eq_iff_and_mask cmd 12 1 (by decide) sel

theorem fieldOp_fieldMode_eq_zero_iff (cmd : BitVec 32) :
    fieldOp cmd = 0 ∧ fieldMode cmd = 0 ↔ cmd &&& 0xF00#32 = 0#32 := by
  rw [fieldOp_eq_iff, fieldMode_eq_iff, show 0xF00#32 = 0x300#32 ||| 0xC00#32 from rfl, BitVec.and_or_distrib_left]
  simp

theorem toNat_fieldOpc (cmd : BitVec 32) : (fieldOpc cmd).toNat = (cmd &&& 0xFF#32).toNat := by
  simp [fieldOpc, Nat.and_two_pow_sub_one_eq_mod _ 8]

theorem fieldReserved_eq_zero_iff (cmd : BitVec 32) : fieldReserved cmd = 0 ↔ cmd >>> 13 = 0#32 := by
  simp only [fieldReserved, ← BitVec.toNat_inj, BitVec.extractLsb'_toNat, BitVec.toNat_ushiftRight,
    Nat.shiftRight_eq_div_pow, BitVec.ofNat_eq_ofNat, BitVec.toNat_ofNat]
  omega

/-- A word without reserved bits is made up of its fields (R81). -/
theorem commandWord_fields {cmd : BitVec 32} (h : fieldReserved cmd = 0) :
    commandWord (fieldOpc cmd) (fieldOp cmd) (fieldMode cmd) (fieldSel cmd) = cmd := by
  rw [← BitVec.toNat_inj] at h ⊢
  simp only [fieldReserved, commandWord, fieldOpc, fieldOp, fieldMode, fieldSel, BitVec.extractLsb'_toNat,
    Nat.shiftRight_eq_div_pow, BitVec.ofNat_eq_ofNat, BitVec.toNat_ofNat] at h ⊢
  omega

end Sys2Proof
end

section
/-! PROOFS. The decoder: the tables of the opcode and of op, an equation for each check of R88, and what it accepts. -/

namespace Sys2Proof

open Sys2Proof.Machine

/-- The code of an opcode (R82). -/
def Opcode.bits : Opcode → BitVec 8
  | .setkey => 0x01
  | .setkeyb => 0x02
  | .setsbox => 0x03
  | .selsbox => 0x04
  | .setiv => 0x05
  | .encblk => 0x06
  | .decblk => 0x07
  | .cipher => 0x08

theorem Opcode.ofBits_eq_some_iff (b : BitVec 8) (opc : Opcode) : ofBits b = some opc ↔ b = opc.bits := by
  constructor
  · intro h
    unfold ofBits at h
    split_ifs at h <;> cases h <;> assumption
  · rintro rfl
    cases opc <;> rfl

theorem Opcode.ofBits_eq_none_iff (b : BitVec 8) : ofBits b = none ↔ b.toNat = 0 ∨ 8 < b.toNat := by
  revert b; decide

/-- The code of an operation (R83). -/
def CipherOp.bits : CipherOp → BitVec 2
  | .encrypt => 0
  | .decrypt => 1
  | .messageAuthentication => 2

theorem CipherOp.ofBits_eq_some_iff (b : BitVec 2) (op : CipherOp) : ofBits b = some op ↔ b = op.bits := by
  constructor
  · intro h
    unfold ofBits at h
    split_ifs at h <;> cases h <;> assumption
  · rintro rfl
    cases op <;> rfl

theorem CipherOp.ofBits_eq_none_iff (op : BitVec 2) : ofBits op = none ↔ op = 3#2 := by
  revert op; decide

/-- The code of a mode (R84). -/
def CipherMode.bits : CipherMode → BitVec 2
  | .ecb => 0
  | .ctr => 1
  | .cfb => 2
  | .mac => 3

theorem CipherMode.bits_ofBits (b : BitVec 2) : (ofBits b).bits = b := by
  revert b; decide

theorem decode_of_reservedBits {cmd : BitVec 32} (h : fieldReserved cmd ≠ 0) (din : List Byte) :
    decode cmd din = .illegal .reservedBits := if_pos h

theorem decode_of_unknownOpcode {cmd : BitVec 32} (hres : fieldReserved cmd = 0)
    (hopc : Opcode.ofBits (fieldOpc cmd) = none) (din : List Byte) : decode cmd din = .illegal .unknownOpcode := by
  simp [decode, hres, hopc]

/-- Past the first two checks: the other checks of the opcode, then its operands. -/
theorem decode_of_opcode {cmd : BitVec 32} {opc : Opcode} (hres : fieldReserved cmd = 0)
    (hopc : Opcode.ofBits (fieldOpc cmd) = some opc) (din : List Byte) :
    decode cmd din =
      if strayField opc cmd then .illegal .strayField
      else if lengthAllowed opc din.length then assemble opc cmd din
      else .illegal .payloadLength := by
  simp [decode, hres, hopc]

/-- What a transaction that is a command has passed. -/
theorem checks_of_decode {cmd : BitVec 32} {din : List Byte} {i : Instr} (h : decode cmd din = .instr i) :
    ∃ opc : Opcode, fieldReserved cmd = 0 ∧ fieldOpc cmd = opc.bits ∧ strayField opc cmd = false ∧
      lengthAllowed opc din.length = true ∧ assemble opc cmd din = .instr i := by
  by_cases hres : fieldReserved cmd = 0
  case neg => rw [decode_of_reservedBits hres] at h; cases h
  cases hopc : Opcode.ofBits (fieldOpc cmd) with
  | none => rw [decode_of_unknownOpcode hres hopc] at h; cases h
  | some opc =>
    rw [decode_of_opcode hres hopc] at h
    split_ifs at h with hstray hlen
    exact ⟨opc, hres, (Opcode.ofBits_eq_some_iff _ _).mp hopc, by simpa using hstray, hlen, h⟩

theorem strayField_eq_false_iff (opc : Opcode) (cmd : BitVec 32) :
    strayField opc cmd = false ↔
      (opc ≠ .cipher → fieldOp cmd = 0 ∧ fieldMode cmd = 0) ∧ (opc ≠ .selsbox → fieldSel cmd = 0) := by
  simp [strayField]

theorem opcode_cipherInstr (op : CipherOp) (mode : CipherMode) (din : List Byte) :
    (cipherInstr op mode din).opcode = .cipher := by
  cases op <;> cases mode <;> rfl

theorem payload_cipherInstr (op : CipherOp) (mode : CipherMode) (din : List Byte) :
    (cipherInstr op mode din).payload = din := by
  cases op <;> cases mode <;> rfl

theorem word_cipherInstr (op : CipherOp) (mode : CipherMode) (din : List Byte) :
    (cipherInstr op mode din).word = commandWord 0x08 op.bits mode.bits 0 := by
  cases op <;> cases mode <;> rfl

theorem assemble_cipher_eq_instr {cmd : BitVec 32} {din : List Byte} {i : Instr}
    (h : assemble .cipher cmd din = .instr i) :
    ∃ op, CipherOp.ofBits (fieldOp cmd) = some op ∧ cipherInstr op (CipherMode.ofBits (fieldMode cmd)) din = i := by
  cases hop : CipherOp.ofBits (fieldOp cmd) with
  | none => simp [assemble, hop] at h
  | some op => exact ⟨op, rfl, by simpa [assemble, hop] using h⟩

theorem opcode_of_assemble {opc : Opcode} {cmd : BitVec 32} {din : List Byte} {i : Instr}
    (h : assemble opc cmd din = .instr i) : i.opcode = opc := by
  cases opc with
  | cipher =>
    obtain ⟨op, -, rfl⟩ := assemble_cipher_eq_instr h
    exact opcode_cipherInstr _ _ _
  | selsbox => cases h; split <;> rfl
  | _ => cases h; rfl

theorem word_of_assemble {opc : Opcode} {cmd : BitVec 32} {din : List Byte} {i : Instr} (hres : fieldReserved cmd = 0)
    (hopc : fieldOpc cmd = opc.bits) (hstray : strayField opc cmd = false) (h : assemble opc cmd din = .instr i) :
    i.word = cmd := by
  obtain ⟨hopmode, hsel⟩ := (strayField_eq_false_iff opc cmd).mp hstray
  rw [← commandWord_fields hres, hopc]
  cases opc with
  | cipher =>
    obtain ⟨op, hop, rfl⟩ := assemble_cipher_eq_instr h
    rw [word_cipherInstr, (CipherOp.ofBits_eq_some_iff _ _).mp hop, CipherMode.bits_ofBits, hsel (by decide)]
    rfl
  | selsbox =>
    obtain ⟨hop, hmode⟩ := hopmode (by decide)
    cases h
    rw [hop, hmode]
    split
    next hsel => rw [hsel]; rfl
    next hsel => rw [show fieldSel cmd = 1 from (BitVec.eq_zero_or_eq_one _).resolve_left hsel]; rfl
  | _ =>
    obtain ⟨hop, hmode⟩ := hopmode (by decide)
    cases h
    rw [hop, hmode, hsel (by decide)]
    rfl

end Sys2Proof
end

section
/-! PROOFS. The payload of a command: the bytes from which its operands were assembled (30_encoding.md R86). -/

namespace Sys2Proof.Machine

/-- Pieces of `w` bytes, read one behind the other, are the front of the payload. -/
theorem flatMap_memRead (din : List Byte) (w n : Nat) :
    ((List.range n).flatMap fun k => memRead din (w * k) w) = din.take (w * n) := by
  induction n with
  | zero => rfl
  | succ n ih => rw [List.range_succ, List.flatMap_append, ih, Nat.mul_succ, List.take_add]; simp [memRead]

/-- Numbers read from pieces of `w` bytes give the payload back when each number gives back its piece. -/
theorem flatMap_map_memRead {α : Type} (enc : α → List Byte) (dec : List Byte → α) (w n : Nat)
    (hdec : ∀ bs, bs.length = w → enc (dec bs) = bs) (din : List Byte) (hlen : din.length = w * n) :
    ((List.range n).map fun k => dec (memRead din (w * k) w)).flatMap enc = din := by
  rw [List.flatMap_map]
  calc _ = (List.range n).flatMap fun k => memRead din (w * k) w := by
        refine List.flatMap_congr fun k hk => hdec _ ?_
        have hpiece : w * (k + 1) ≤ w * n := Nat.mul_le_mul_left w (List.mem_range.mp hk)
        rw [Nat.mul_succ] at hpiece
        simp [memRead]
        omega
    _ = din := by rw [flatMap_memRead, ← hlen, List.take_length]

theorem toList_keyWordsOf (din : List Byte) :
    (keyWordsOf din).toList = (List.range 8).map fun j => be32 (memRead din (4 * j) 4) := by
  apply List.ext_getElem <;> simp [keyWordsOf]

/-- A key's payload back from its words. -/
theorem keyPayload_keyWordsOf (din : List Byte) (h : din.length = 32) : keyPayload (keyWordsOf din) = din := by
  rw [keyPayload, toList_keyWordsOf]
  exact flatMap_map_memRead bytes4 be32 4 8 bytes4_be32 din h

/-- An IV's payload back from its blocks. -/
theorem blocksPayload_ivBlocksOf (din : List Byte) (h : din.length % 8 = 0) : blocksPayload (ivBlocksOf din) = din :=
  flatMap_map_memRead bytes8 be64 8 (din.length / 8) bytes8_be64 din (by omega)

/-- A byte's lower nibble as SETSBOX takes it and as its payload carries it (R86, D6). -/
theorem setWidth_ofNat_four_toNat (b : Byte) : (BitVec.ofNat 4 b.toNat).setWidth 8 = b &&& 0x0F#8 := by
  apply BitVec.eq_of_toNat_eq
  rw [BitVec.toNat_and, show (0x0F#8).toNat = 2 ^ 4 - 1 from rfl, Nat.and_two_pow_sub_one_eq_mod]
  simp
  omega

/-- A table's payload back from its entries, the upper nibbles cleared. -/
theorem sboxPayload_sboxEntriesOf (din : List Byte) (h : din.length = 128) :
    sboxPayload (sboxEntriesOf din) = din.map fun b => b &&& 0x0F#8 := by
  apply List.ext_getElem
  · simp [sboxPayload, h]
  · intro e he he'
    have hdin : e < din.length := by simpa using he'
    have hbyte : memRead din e 1 = [din[e]] := by
      rw [memRead, List.drop_eq_getElem_cons hdin, List.take_succ_cons, List.take_zero]
    simp only [sboxPayload, sboxEntriesOf, List.getElem_map, Vector.getElem_toList, Vector.getElem_ofFn, hbyte]
    simp [beNat, ← setWidth_ofNat_four_toNat]

end Sys2Proof.Machine
end

section
/-! PROOFS. What the decoder accepts, and how a step answers what it does not. -/

namespace Sys2Proof

open Sys2Proof.Machine

/-- The payload from which operands were assembled, but for SETSBOX (R86). -/
theorem payload_of_assemble {opc : Opcode} {cmd : BitVec 32} {din : List Byte} {i : Instr} (hopc : opc ≠ .setsbox)
    (hlen : lengthAllowed opc din.length = true) (h : assemble opc cmd din = .instr i) : i.payload = din := by
  cases opc with
  | setsbox => exact absurd rfl hopc
  | setkey => cases h; exact keyPayload_keyWordsOf din (by simpa [lengthAllowed] using hlen)
  | setkeyb => cases h; rfl
  | selsbox =>
    obtain rfl : din = [] := by simpa [lengthAllowed] using hlen
    cases h
    split <;> rfl
  | setiv => cases h; exact blocksPayload_ivBlocksOf din (by simpa [lengthAllowed] using hlen)
  | encblk | decblk => cases h; exact bytes8_be64 din (by simpa [lengthAllowed] using hlen)
  | cipher =>
    obtain ⟨op, -, rfl⟩ := assemble_cipher_eq_instr h
    exact payload_cipherInstr _ _ _

/-- Only a reserved op keeps operands from being assembled. -/
theorem exists_assemble_eq_instr {opc : Opcode} {cmd : BitVec 32}
    (hop : ¬(opc = .cipher ∧ CipherOp.ofBits (fieldOp cmd) = none)) (din : List Byte) :
    ∃ i, assemble opc cmd din = .instr i := by
  cases opc with
  | cipher =>
    obtain ⟨op, h⟩ := Option.ne_none_iff_exists'.mp fun h => hop ⟨rfl, h⟩
    exact ⟨_, by rw [assemble, h]⟩
  | _ => exact ⟨_, rfl⟩

theorem Instr.word_op_not_reserved (i : Instr) : ¬(i.opcode = .cipher ∧ CipherOp.ofBits (fieldOp i.word) = none) := by
  rintro ⟨hopc, hop⟩
  obtain ⟨op, hop', -⟩ := assemble_cipher_eq_instr (hopc ▸ i.assemble_encoded)
  cases hop.symm.trans hop'

/-- The decoder accepts the words of the commands, each with a length allowed for its opcode (R86, R92). -/
theorem decode_accepts_iff (cmd : BitVec 32) (din : List Byte) :
    (∃ i, decode cmd din = .instr i) ↔ ∃ i : Instr, i.word = cmd ∧ lengthAllowed i.opcode din.length = true := by
  constructor
  · rintro ⟨i, h⟩
    obtain ⟨opc, hres, hopc, hstray, hlen, hi⟩ := checks_of_decode h
    exact ⟨i, word_of_assemble hres hopc hstray hi, (opcode_of_assemble hi).symm ▸ hlen⟩
  · rintro ⟨i, rfl, hlen⟩
    simp only [decode_of_opcode i.word_reserved i.word_opcode, i.word_no_stray, hlen, Bool.false_eq_true, if_false, if_true]
    exact exists_assemble_eq_instr i.word_op_not_reserved din

/-- SETSBOX as the decoder reads it (R86). -/
theorem decode_setsbox (din : List Byte) :
    decode 0x00000003#32 din =
      if din.length = 128 then .instr (.setsbox (sboxEntriesOf din)) else .illegal .payloadLength := by
  rw [decode_of_opcode (opc := .setsbox) rfl rfl, if_neg (by decide)]
  simp [lengthAllowed, assemble]

/-- Check (3) of R88 on the word's bits. -/
theorem strayField_eq_true_iff (opc : Opcode) (cmd : BitVec 32) :
    strayField opc cmd = true ↔
      (opc.bits.toNat ≠ 8 ∧ cmd &&& 0xF00#32 ≠ 0#32) ∨ (opc.bits.toNat ≠ 4 ∧ cmd &&& 0x1000#32 ≠ 0#32) := by
  have hcipher : opc ≠ .cipher ↔ opc.bits.toNat ≠ 8 := by cases opc <;> decide
  have hselsbox : opc ≠ .selsbox ↔ opc.bits.toNat ≠ 4 := by cases opc <;> decide
  have hsel : fieldSel cmd = 0 ↔ cmd &&& 0x1000#32 = 0#32 := fieldSel_eq_iff cmd 0
  rw [← not_iff_not, Bool.not_eq_true, strayField_eq_false_iff, fieldOp_fieldMode_eq_zero_iff, hsel, hcipher, hselsbox]
  tauto

/-- Check (5) of R88 by the opcode's code. -/
theorem lengthAllowed_eq_false_iff (opc : Opcode) (len : Nat) :
    lengthAllowed opc len = false ↔
      (opc.bits.toNat = 1 ∧ len ≠ 32) ∨ (opc.bits.toNat = 3 ∧ len ≠ 128) ∨ (opc.bits.toNat = 4 ∧ len ≠ 0) ∨
        (opc.bits.toNat = 5 ∧ len % 8 ≠ 0) ∨ ((opc.bits.toNat = 6 ∨ opc.bits.toNat = 7) ∧ len ≠ 8) := by
  cases opc <;> simp [lengthAllowed, Opcode.bits]

/-- Check (4) of R88 on the word's bits. -/
theorem reservedOp_iff (opc : Opcode) (cmd : BitVec 32) :
    opc = .cipher ∧ CipherOp.ofBits (fieldOp cmd) = none ↔ opc.bits.toNat = 8 ∧ cmd &&& 0x300#32 = 0x300#32 := by
  have hcipher : opc = .cipher ↔ opc.bits.toNat = 8 := by cases opc <;> decide
  rw [hcipher, CipherOp.ofBits_eq_none_iff, fieldOp_eq_iff]
  rfl

end Sys2Proof

namespace Sys2Proof.Machine

/-- A step on a formed transaction that is no command (R216). -/
theorem step_of_not_instr {s : State} {c : Command} {rest : List Request} {din : List Byte}
    (hnext : s.inbox = .command c :: rest) (hlen : c.len.toNat ≤ s.params.lenMax.toNat) (hdin : c.payload? = some din)
    (hi : ¬∃ i, decode c.cmd din = .instr i) : step s = .next ((s.accept rest).raise .illegalCommand) := by
  cases hdec : decode c.cmd din with
  | instr i => exact absurd ⟨i, hdec⟩ hi
  | illegal why =>
    have hfetch : fetch s.params c = .illegal why := by simp [fetch, fetchWithin, withinCapacity, hlen, hdin, hdec]
    rw [step_command s c rest hnext, hfetch]

/-- A missing byte is missing in every read across it (R50). -/
theorem Memory.read_eq_none {m : Memory} {off n k : Nat} (hk : k < n) (h : m.readByte (off + k) = none) :
    m.read off n = none := by
  induction n generalizing off k with
  | zero => omega
  | succ n ih =>
    cases k with
    | zero => simp_all [Memory.read]
    | succ k => simp [Memory.read, ih (off := off + 1) (k := k) (by omega) (by rwa [Nat.add_right_comm])]

theorem Command.payload?_eq_none {c : Command}
    (h : c.din.length ≠ c.len.toNat ∨ ∃ k, k < c.len.toNat ∧ c.din.readByte k = none) : c.payload? = none := by
  rw [Command.payload?, ite_eq_right_iff]
  intro hlen
  obtain ⟨k, hk, hnone⟩ := h.resolve_left (not_not.mpr hlen)
  exact Memory.read_eq_none hk (by rwa [Nat.zero_add])

end Sys2Proof.Machine
end

section
/-! PROOFS. The statements of 30_encoding.md: O7 to O13, O57, O58. -/

namespace Sys2Proof.Proofs

open Sys2Proof.Machine

/-- Settles O7, which is `decode_encode`. -/
theorem decodeOfEncodeIsTheCommand : Obligations.DecodeOfEncodeIsTheCommand := decode_encode

/-- Settles O8: the fields that pass the decoder's checks are those of the row, and each form of payload is
read back from the operands assembled from it. -/
theorem encodeOfDecodeIsTheTransaction : Obligations.EncodeOfDecodeIsTheTransaction := by
  intro cmd din i h
  obtain ⟨opc, hres, hopc, hstray, hlen, hi⟩ := checks_of_decode h
  refine ⟨word_of_assemble hres hopc hstray hi, fun hne => ?others, ?setsbox⟩
  case others =>
    refine payload_of_assemble (fun hsetsbox => ?_) hlen hi
    subst hsetsbox
    cases hi
    exact hne _ rfl
  case setsbox =>
    rintro ⟨table, htable⟩
    obtain rfl : opc = .setsbox := by rw [← opcode_of_assemble hi, htable]; rfl
    obtain rfl : Instr.setsbox (sboxEntriesOf din) = i := Decoded.instr.inj hi
    have h128 : din.length = 128 := by simpa [lengthAllowed] using hlen
    rw [encode, Instr.payload, sboxPayload_sboxEntriesOf din h128]

/-- Settles O9: the words of the commands, written out, and the length that each opcode requires. -/
theorem decodeAcceptsExactlyTheCommandMap : Obligations.DecodeAcceptsExactlyTheCommandMap := by
  intro cmd din
  rw [decode_accepts_iff]
  constructor
  · rintro ⟨i, rfl, hlen⟩
    cases i with
    | setkeyb _ => exact .inr (.inl rfl)
    | setkey _ | setsbox _ | selsboxA | selsboxB | setiv _ | encblk _ | decblk _ =>
      simp only [Instr.opcode, lengthAllowed, beq_iff_eq] at hlen
      simp [Instr.word, commandWord, hlen]
    | _ => simp [Instr.word, commandWord]
  · have hfixed {n : Nat} (h : din.length = n) : (din.length == n) = true := by rw [h, beq_self_eq_true]
    rintro (⟨rfl, hlen⟩ | rfl | ⟨rfl, hlen⟩ | ⟨rfl | rfl, hlen⟩ | ⟨rfl, hlen⟩ | ⟨rfl | rfl, hlen⟩ | hcipher)
    · exact ⟨.setkey (keyWordsOf din), rfl, hfixed hlen⟩
    · exact ⟨.setkeyb din, rfl, rfl⟩
    · exact ⟨.setsbox (sboxEntriesOf din), rfl, hfixed hlen⟩
    · exact ⟨.selsboxA, rfl, hfixed hlen⟩
    · exact ⟨.selsboxB, rfl, hfixed hlen⟩
    · exact ⟨.setiv (ivBlocksOf din), rfl, beq_iff_eq.mpr hlen⟩
    · exact ⟨.encblk (be64 din), rfl, hfixed hlen⟩
    · exact ⟨.decblk (be64 din), rfl, hfixed hlen⟩
    · simp only [List.mem_cons, List.not_mem_nil, or_false] at hcipher
      rcases hcipher with rfl | rfl | rfl | rfl | rfl | rfl | rfl | rfl | rfl | rfl | rfl | rfl
      exacts [⟨.cipherEncEcb din, rfl, rfl⟩, ⟨.cipherDecEcb din, rfl, rfl⟩, ⟨.cipherMacEcb din, rfl, rfl⟩,
        ⟨.cipherEncCtr din, rfl, rfl⟩, ⟨.cipherDecCtr din, rfl, rfl⟩, ⟨.cipherMacCtr din, rfl, rfl⟩,
        ⟨.cipherEncCfb din, rfl, rfl⟩, ⟨.cipherDecCfb din, rfl, rfl⟩, ⟨.cipherMacCfb din, rfl, rfl⟩,
        ⟨.cipherEncMac din, rfl, rfl⟩, ⟨.cipherDecMac din, rfl, rfl⟩, ⟨.cipherMacMac din, rfl, rfl⟩]

/-- Settles O10, check by check: each of the conditions on the word is that of the model's decoder. -/
theorem decoderChecksInOrder : Obligations.DecoderChecksInOrder := by
  intro cmd din opc reserved unknown stray badOp badLen
  have hreserved : reserved ↔ ¬fieldReserved cmd = 0 := not_congr (fieldReserved_eq_zero_iff cmd).symm
  have hunknown : unknown ↔ Opcode.ofBits (fieldOpc cmd) = none := by
    rw [Opcode.ofBits_eq_none_iff, toNat_fieldOpc]
  by_cases hres : fieldReserved cmd = 0
  case neg =>
    have hdec := decode_of_reservedBits hres din
    tauto
  cases hopc : Opcode.ofBits (fieldOpc cmd) with
  | none =>
    have hdec := decode_of_unknownOpcode hres hopc din
    tauto
  | some o =>
    have hcode : opc = o.bits.toNat := by rw [← (Opcode.ofBits_eq_some_iff _ _).mp hopc, toNat_fieldOpc]
    have hstray : stray ↔ strayField o cmd = true := by rw [strayField_eq_true_iff, ← hcode]
    have hbadOp : badOp ↔ o = .cipher ∧ CipherOp.ofBits (fieldOp cmd) = none := by rw [reservedOp_iff, ← hcode]
    have hbadLen : badLen ↔ lengthAllowed o din.length = false := by rw [lengthAllowed_eq_false_iff, ← hcode]
    rw [hreserved, hunknown, hopc, hstray, hbadOp, hbadLen, decode_of_opcode hres hopc din]
    refine ⟨fun h => absurd hres h, fun _ h => absurd h (Option.some_ne_none o), fun _ _ h => if_pos h,
      fun _ _ h hop => ?_, fun _ _ h _ hlen => ?_, fun _ _ h hop hlen => ?_⟩
    · obtain ⟨rfl, hop⟩ := hop
      simp [h, lengthAllowed, assemble, hop]
    · simp [h, hlen]
    · simpa [h, hlen] using exists_assemble_eq_instr hop din

/-- Settles O11: no reserved encoding is the word of a command. -/
theorem reservedEncodingsAreIllegal : Obligations.ReservedEncodingsAreIllegal := by
  intro s c rest din opc hnext hlen hdin hreserved
  refine step_of_not_instr hnext hlen hdin fun hi => ?_
  obtain ⟨i, hword, -⟩ := (decode_accepts_iff c.cmd din).mp hi
  revert hreserved
  simp only [opc, ← hword]
  cases i <;> simp [Instr.word, commandWord]

/-- Settles O12: the length is not the one that the map has for the word. -/
theorem wrongLengthIsIllegal : Obligations.WrongLengthIsIllegal := by
  intro s c rest din hnext hlen hdin hwrong
  refine step_of_not_instr hnext hlen hdin fun hi => ?_
  rw [← c.length_payload din hdin] at hwrong
  have hmap := (decodeAcceptsExactlyTheCommandMap c.cmd din).mp hi
  rcases hwrong with ⟨hcmd, hwrong⟩ | ⟨hcmd, hwrong⟩ | ⟨hcmd | hcmd, hwrong⟩ | ⟨hcmd, hwrong⟩ | ⟨hcmd | hcmd, hwrong⟩ <;>
    simp [hcmd, hwrong] at hmap

/-- Settles O13: DIN holds no payload. -/
theorem malformedTransactionFaults : Obligations.MalformedTransactionFaults := by
  intro s c rest hnext hlen hdin
  have hfetch : fetch s.params c = .malformed := by
    simp [fetch, fetchWithin, withinCapacity, hlen, Command.payload?_eq_none hdin]
  rw [step_command s c rest hnext, hfetch]

/-- Settles O57: the cleared payload is the one that carries the table read from the payload, and the table is
read back from it. -/
theorem setsboxIgnoresUpperNibbles : Obligations.SetsboxIgnoresUpperNibbles := by
  intro din
  rw [decode_setsbox, decode_setsbox, List.length_map]
  split
  next hlen => rw [← sboxPayload_sboxEntriesOf din hlen, sboxEntriesOf_sboxPayload]
  next => rfl

/-- Settles O58: the words are those of the encoder. -/
theorem sampleWordsDecode : Obligations.SampleWordsDecode := by
  intro buffer
  exact ⟨decode_encode (.setkey (Vector.replicate 8 0)), decode_encode .selsboxB,
    decode_encode (.encblk 0xfedcba9876543210#64), decode_encode (.cipherDecEcb buffer),
    decode_encode (.cipherEncCtr buffer), decode_encode (.cipherDecCfb buffer), decode_encode (.cipherMacMac buffer),
    decode_encode (.cipherEncMac buffer)⟩

end Sys2Proof.Proofs
end

section
/-! PROOFS. The operands of the configuration commands and what those commands answer (40_key_schedule_and_config.md). -/

namespace Sys2Proof.Machine

open Sys2Proof.Safety

/-- A response without data, field by field (R87). -/
theorem State.succeed_nil (s : State) : s.succeed [] = { s with status := 0, olen := 0, dout := [] } := by
  rw [State.succeed, List.length_nil, olenOf_of_lt (by decide)]
  rfl

/-- BE32 puts four bytes side by side, the first in the most significant place (R11). -/
theorem be32_eq_append (a b c d : Byte) : be32 [a, b, c, d] = a ++ b ++ c ++ d := by
  have happend {n : Nat} (x : BitVec n) (y : Byte) : (x ++ y).toNat = x.toNat * 2 ^ 8 + y.toNat := by
    rw [BitVec.toNat_append, ← Nat.shiftLeft_add_eq_or_of_lt y.isLt, Nat.shiftLeft_eq]
  apply BitVec.eq_of_toNat_eq
  rw [happend, happend, happend]
  simp only [be32, beNat, List.length_cons, List.length_nil, BitVec.toNat_ofNat]
  omega

/-- Four bytes of a payload that has them (R10). -/
theorem memRead_four (din : List Byte) (off : Nat) (h : off + 4 ≤ din.length) :
    memRead din off 4 = [din.getD off 0, din.getD (off + 1) 0, din.getD (off + 2) 0, din.getD (off + 3) 0] := by
  have hcons (i : Nat) (hi : i < din.length) : din.drop i = din.getD i 0 :: din.drop (i + 1) := by
    rw [List.drop_eq_getElem_cons hi, List.getD_eq_getElem din 0 hi]
  rw [memRead, hcons off (by omega), hcons (off + 1) (by omega), hcons (off + 2) (by omega), hcons (off + 3) (by omega)]
  rfl

/-- A key word of a payload: the bytes at its place, big-endian (R54, R86). -/
theorem getElem_keyWordsOf (din : List Byte) (hlen : din.length = 32) (j : Nat) (h : j < 8) :
    (keyWordsOf din)[j] =
      din.getD (4 * j) 0 ++ din.getD (4 * j + 1) 0 ++ din.getD (4 * j + 2) 0 ++ din.getD (4 * j + 3) 0 := by
  rw [keyWordsOf, Vector.getElem_ofFn, memRead_four din (4 * j) (by omega), be32_eq_append]

/-- SETKEYB of a string of the one length it takes (R114). -/
theorem exec_setkeyb_of_length {bytes : List Byte} (h : bytes.length = 32) (s : State) :
    exec (.setkeyb bytes) s = .next ((s.writeKey (keyWordsOf bytes)).succeed []) :=
  congrArg done (if_pos h)

/-- SETKEYB of a string of any other length (R114, R212). -/
theorem exec_setkeyb_of_length_ne {bytes : List Byte} (h : bytes.length ≠ 32) (s : State) :
    exec (.setkeyb bytes) s = .next (s.raise .keyLength) :=
  congrArg done (if_neg h)

/-- SETSBOX of a table that fails the check (R115, R219). -/
theorem exec_setsbox_of_rejected {table : SboxTable} {s : State} (hvalidate : s.params.sboxValidate = true)
    (h : ¬SubTablesArePermutations table) : exec (.setsbox table) s = .next (s.raise .sboxInvalid) := by
  rw [← isPermTable_iff] at h
  exact congrArg done (if_pos (by simp [hvalidate, h]))

/-- SETIV beyond IV_MAX_BLOCKS (R117). -/
theorem exec_setiv_of_not_depthAdmits {blocks : List Block} {s : State} (h : ¬DepthAdmits s blocks.length) :
    exec (.setiv blocks) s = .next (s.raise .illegalCommand) :=
  congrArg done (setIv_of_not_depthAdmits blocks s h)

/-- The round keys in their order, each as the key word it is (R110). -/
theorem toList_schedule (key : KeyWords) : (schedule key).toList = (List.finRange 32).map fun p => key[kidx p] := by
  rw [schedule, Vector.toList_ofFn, List.ofFn_eq_map]

end Sys2Proof.Machine
end

section
/-! PROOFS. The statements of 40_key_schedule_and_config.md: O16 to O21, O23. -/

namespace Sys2Proof.Proofs

open Sys2Proof.Machine Sys2Proof.Safety

/-- Settles O16: KEY and RK are written together, and the schedule is then read at each index. -/
theorem setkeyWritesKeyAndRoundKeys : Obligations.SetkeyWritesKeyAndRoundKeys := by
  intro key s
  exact ⟨(s.writeKey key).succeed [], rfl, rfl, getElem_schedule_of_lt_24 key, getElem_schedule_of_24_le key,
    delivers_succeed _ _, rfl, rfl, rfl, rfl, rfl⟩

/-- Settles O17: the length decides, and each word stored is read at its place in the payload. -/
theorem setkeybAcceptsExactly32Bytes : Obligations.SetkeybAcceptsExactly32Bytes := by
  intro bytes s
  constructor
  · intro hlen
    exact ⟨_, exec_setkeyb_of_length hlen s, getElem_keyWordsOf bytes hlen, rfl, delivers_succeed _ _,
      rfl, rfl, rfl, rfl, rfl⟩
  · intro hlen
    exact exec_setkeyb_of_length_ne hlen s

/-- Settles O18: a key's payload has the length that SETKEYB takes and its words are the key's. -/
theorem setkeybOfKeyBytesIsSetkey : Obligations.SetkeybOfKeyBytesIsSetkey := exec_setkeyb_keyPayload

/-- Settles O19, by whether SBOX_VALIDATE asks for a check and the table passes it. -/
theorem setsboxStoresOrRejectsTheTable : Obligations.SetsboxStoresOrRejectsTheTable := by
  intro table s
  constructor
  · intro hadmitted
    rw [exec_setsbox_of_admitted hadmitted, State.succeed_nil]
    rfl
  · intro hvalidate hperm
    exact exec_setsbox_of_rejected hvalidate hperm

/-- Settles O20: the command writes its preset and answers no data. -/
theorem selsboxLoadsThePreset : Obligations.SelsboxLoadsThePreset := by
  intro s
  exact ⟨congrArg done (s.writeSbox sboxPresetA).succeed_nil, congrArg done (s.writeSbox Config.sboxPresetB).succeed_nil⟩

/-- Settles O21, by whether IV_MAX_BLOCKS admits the blocks. -/
theorem setivReplacesTheIv : Obligations.SetivReplacesTheIv := by
  intro blocks s
  constructor
  · intro hdepth
    exact ⟨_, exec_setiv_of_depthAdmits hdepth, rfl, rfl, delivers_succeed _ _, rfl, rfl, rfl, rfl, rfl, rfl⟩
  · intro m hm hlt
    exact exec_setiv_of_not_depthAdmits fun hdepth => Nat.not_le_of_lt hlt (hdepth m hm)

/-- Settles O23: the 32 indices are those of `kidx`, and decrypt goes through the same list from its end. -/
theorem scheduleAndItsReverse : Obligations.ScheduleAndItsReverse := by
  intro key sbox b word forward backward run
  have hkidx : (List.finRange 32).map kidx = forward := by decide
  have hforward : (schedule key).toList = forward.map word := by
    rw [toList_schedule, ← hkidx, List.map_map]
    rfl
  have hbackward : (schedule key).toList.reverse = backward.map word := by
    rw [hforward, ← List.map_reverse]
    rfl
  refine ⟨hforward, rfl, ?encrypt, ?decrypt⟩
  case encrypt =>
    rw [encrypt, hforward]
    rfl
  case decrypt =>
    rw [decrypt, hbackward]
    rfl

end Sys2Proof.Proofs
end

section
/-! PROOFS. The nibble transform lane by lane, and when it is a bijection (41_block_engine.md R130, R134). -/

namespace Sys2Proof.Machine

open Sys2Proof.Safety

/-- The nibbles of a word put together from eight. The widths stay sums here, as the library's lemmas on `++` have them. -/
theorem extractLsb'_append_nibbles (f : Fin 8 → Nibble) (i : Fin 8) :
    (f 7 ++ f 6 ++ f 5 ++ f 4 ++ f 3 ++ f 2 ++ f 1 ++ f 0).extractLsb' (4 * i.val) 4 = f i := by
  fin_cases i <;>
    simp [BitVec.extractLsb'_append_eq_of_le, BitVec.extractLsb'_append_eq_of_add_le, -Nat.reduceAdd]

/-- Each lane of T(a) is looked up for that lane alone (R130). -/
theorem lane_T (sbox : SboxTable) (a : Word) (i : Fin 8) : lane (T sbox a) i = lookupLane sbox a i :=
  extractLsb'_append_nibbles (lookupLane sbox a) i

theorem eq_of_lane_eq {a b : Word} (h : ∀ i, lane a i = lane b i) : a = b := by
  have hbit (x : Word) (j : Nat) (hj : j < 32) : (lane x ⟨j / 4, by omega⟩).getLsbD (j % 4) = x.getLsbD j := by
    rw [lane, BitVec.getLsbD_extractLsb', Nat.div_add_mod]
    simp [Nat.mod_lt]
  apply BitVec.eq_of_getLsbD_eq
  intro j hj
  rw [← hbit a j hj, ← hbit b j hj, h]

theorem exists_lane_eq (i : Fin 8) (n : Nibble) : ∃ a, lane a i = n := by
  refine ⟨n.setWidth 32 <<< (4 * i.val), ?_⟩
  ext j hj
  have hplace : 4 * i.val + j < 32 := by omega
  simp [lane, hplace, hj]

/-- The entry of sub-table `i` for a nibble (R24). -/
def subTableEntry (sbox : SboxTable) (i : Fin 8) (n : Nibble) : Nibble :=
  sbox[16 * i.val + n.toNat]'(by have h := i.isLt; have h' := n.isLt; omega)

theorem getElem?_eq_subTableEntry (sbox : SboxTable) (i : Fin 8) (n : Nibble) :
    sbox[16 * i.val + n.toNat]? = some (subTableEntry sbox i n) :=
  Vector.getElem?_eq_getElem _

theorem lookupLane_eq_subTableEntry (sbox : SboxTable) (a : Word) (i : Fin 8) :
    lookupLane sbox a i = subTableEntry sbox i (lane a i) := rfl

theorem subTablesArePermutations_iff_injective (sbox : SboxTable) :
    SubTablesArePermutations sbox ↔ ∀ i, Function.Injective (subTableEntry sbox i) := by
  constructor
  · intro hperm i v w heq
    by_contra hne
    refine hperm i v.toNat w.toNat i.isLt v.isLt w.isLt (fun h => hne (BitVec.eq_of_toNat_eq h)) ?_
    rw [getElem?_eq_subTableEntry, getElem?_eq_subTableEntry, heq]
  · intro hinj i v w hi hv hw hne heq
    have hentry : subTableEntry sbox ⟨i, hi⟩ (.ofNatLT v hv) = subTableEntry sbox ⟨i, hi⟩ (.ofNatLT w hw) := by
      apply Option.some.inj
      rw [← getElem?_eq_subTableEntry, ← getElem?_eq_subTableEntry]
      exact heq
    exact hne (congrArg BitVec.toNat (hinj _ hentry))

/-- T acts on each lane by itself, so it is a bijection when each sub-table is. -/
theorem bijective_T_of_injective {sbox : SboxTable} (h : ∀ i, Function.Injective (subTableEntry sbox i)) :
    Function.Bijective (T sbox) := by
  refine Finite.injective_iff_bijective.mp fun a b hab => eq_of_lane_eq fun i => h i ?_
  rw [← lookupLane_eq_subTableEntry, ← lookupLane_eq_subTableEntry, ← lane_T, ← lane_T, hab]

/-- If T reaches every word, each sub-table reaches every nibble, and sixteen entries then are pairwise different. -/
theorem injective_subTableEntry_of_surjective {sbox : SboxTable} (h : Function.Surjective (T sbox)) (i : Fin 8) :
    Function.Injective (subTableEntry sbox i) := by
  refine Finite.injective_iff_surjective.mpr fun n => ?_
  obtain ⟨b, hb⟩ := exists_lane_eq i n
  obtain ⟨a, ha⟩ := h b
  exact ⟨lane a i, by rw [← lookupLane_eq_subTableEntry, ← lane_T, ha, hb]⟩

end Sys2Proof.Machine
end

section
/-! PROOFS. The rounds over a sequence of round keys: the last one, and the same rounds backwards (41_block_engine.md R139, R141). -/

namespace Sys2Proof.Machine

/-- The last round and the final join together leave the low half in place (R139). -/
theorem joinSwapped_rounds_last (sbox : SboxTable) (ks : List Word) (n : Nat) (hlen : ks.length = n + 1) (h : Halves) :
    joinSwapped (rounds sbox ks h) =
      join (G sbox ks[n] (rounds sbox (ks.take n) h).a0 ^^^ (rounds sbox (ks.take n) h).a1)
        (rounds sbox (ks.take n) h).a0 := by
  have hsplit : ks.take n ++ [ks[n]] = ks := by
    rw [List.take_concat_get' ks n (by omega), List.take_of_length_le hlen.le]
  calc joinSwapped (rounds sbox ks h)
      = joinSwapped (rounds sbox (ks.take n ++ [ks[n]]) h) := by rw [hsplit]
    _ = joinSwapped (bigG sbox ks[n] (rounds sbox (ks.take n) h)) := by rw [rounds_append]; rfl
    _ = _ := rfl

/-- A round undoes itself across the exchange of the halves (R134). -/
theorem bigG_exchange_bigG (sbox : SboxTable) (k : Word) (h : Halves) :
    bigG sbox k (splitBlock (joinSwapped (bigG sbox k h))) = splitBlock (joinSwapped h) := by
  simp [bigG]

/-- The rounds over the reversed keys undo the rounds across the exchange of the halves (R141). -/
theorem rounds_reverse_exchange_rounds (sbox : SboxTable) (ks : List Word) (h : Halves) :
    rounds sbox ks.reverse (splitBlock (joinSwapped (rounds sbox ks h))) = splitBlock (joinSwapped h) := by
  induction ks generalizing h with
  | nil => rfl
  | cons k ks ih =>
    rw [List.reverse_cons, rounds_append, rounds_cons sbox k ks, ih, rounds_cons, rounds_nil, bigG_exchange_bigG]

theorem joinSwapped_rounds_reverse (sbox : SboxTable) (ks : List Word) (b : Block) :
    joinSwapped (rounds sbox ks.reverse (splitBlock (joinSwapped (rounds sbox ks (splitBlock b))))) = b := by
  rw [rounds_reverse_exchange_rounds, splitBlock_joinSwapped]
  exact join_hi_lo b

@[simp] theorem decrypt_encrypt (rk : RoundKeys) (sbox : SboxTable) (b : Block) : decrypt rk sbox (encrypt rk sbox b) = b :=
  joinSwapped_rounds_reverse sbox rk.toList b

@[simp] theorem encrypt_decrypt (rk : RoundKeys) (sbox : SboxTable) (b : Block) : encrypt rk sbox (decrypt rk sbox b) = b := by
  have h := joinSwapped_rounds_reverse sbox rk.toList.reverse b
  rwa [List.reverse_reverse] at h

end Sys2Proof.Machine
end

section
/-! PROOFS. The response of a block command (41_block_engine.md R137, R138). -/

namespace Sys2Proof.Machine

open Sys2Proof.Safety

/-- A response that delivers the bytes of a block, field by field (R87). -/
theorem response_of_delivers_bytes8 {t : State} {v : Block} (h : Delivers t (bytes8 v)) :
    t.status = 0 ∧ t.olen = 8 ∧ (∀ j, j < 8 → t.dout.readByte j = some (byteOf v j)) ∧
      ∀ j, 8 ≤ j → t.dout.readByte j = none := by
  obtain ⟨hstatus, holen, hbytes⟩ := h
  refine ⟨hstatus, ?_, fun j hj => ?_, fun j hj => ?_⟩
  · rw [holen, length_bytes8, olenOf_of_lt (by decide)]
    rfl
  · rw [hbytes, getElem?_bytes8 v j hj]
  · rw [hbytes, List.getElem?_eq_none (by rwa [length_bytes8])]

end Sys2Proof.Machine
end

section
/-! PROOFS. The statements of 41_block_engine.md: O24 to O30. -/

namespace Sys2Proof.Proofs

open Sys2Proof.Machine Sys2Proof.Safety

/-- Settles O24: a lane of T is the entry of its sub-table. -/
theorem substitutionReplacesEachLane : Obligations.SubstitutionReplacesEachLane := by
  intro sbox a i hi
  exact (congrArg some (lane_T sbox a ⟨i, hi⟩)).trans (getElem?_eq_subTableEntry sbox ⟨i, hi⟩ _).symm

/-- Settles O25, by whether the rotation carries the bit round the end of the word. -/
theorem roundTransformAddsSubstitutesRotates : Obligations.RoundTransformAddsSubstitutesRotates := by
  intro sbox k a j hj
  have hsum : BitVec.ofNat 32 ((k.toNat + a.toNat) % 2 ^ 32) = k + a := BitVec.eq_of_toNat_eq (by simp)
  rw [hsum, G, BitVec.getLsbD_rotateLeft]
  by_cases hstays : j < 21
  · have hplace : j + 11 < 32 := by omega
    simp [Nat.mod_eq_of_lt hplace, hplace]
  · have hplace : (j + 11) % 32 = j - 21 := by omega
    simp [hplace, show j - 21 < 11 by omega, show 21 + (j - 21) = j by omega]

/-- Settles O26: the same G of the half that the round passes on is added twice and cancels. -/
theorem feistelRoundIsInvertible : Obligations.FeistelRoundIsInvertible := by
  intro sbox k h
  refine ⟨rfl, ?undoneAfter, ?undoneBefore⟩
  case undoneAfter => simp [bigG]
  case undoneBefore => simp [bigG]

/-- Settles O27: T is a bijection exactly when the entries of each sub-table are pairwise different. -/
theorem substitutionIsBijectiveExactlyOnPermutations : Obligations.SubstitutionIsBijectiveExactlyOnPermutations := by
  intro sbox
  rw [subTablesArePermutations_iff_injective]
  exact ⟨fun h => injective_subTableEntry_of_surjective h.surjective, bijective_T_of_injective⟩

/-- Settles O28: both block functions are the rounds over 32 round keys, and the last key of decrypt is the first of encrypt. -/
theorem lastRoundDoesNotExchange : Obligations.LastRoundDoesNotExchange := by
  intro rk sbox b
  have hlast : rk.toList[31]'(by simp) = rk[31] := by simp
  have hfirst : rk.toList.reverse[31]'(by simp) = rk[0] := by simp
  constructor
  · rw [← hlast]
    exact joinSwapped_rounds_last sbox rk.toList 31 (by simp) (splitBlock b)
  · rw [← hfirst]
    exact joinSwapped_rounds_last sbox rk.toList.reverse 31 (by simp) (splitBlock b)

/-- Settles O29: each block function runs the other's rounds backwards. -/
theorem decryptUndoesEncrypt : Obligations.DecryptUndoesEncrypt :=
  fun rk sbox b => ⟨decrypt_encrypt rk sbox b, encrypt_decrypt rk sbox b⟩

/-- Settles O30: both commands end with a response of the block's bytes. -/
theorem blockCommandsAnswerTheBlock : Obligations.BlockCommandsAnswerTheBlock := by
  intro b s
  constructor
  · exact ⟨_, rfl, sameRegisters_succeed s _, response_of_delivers_bytes8 (delivers_succeed s _)⟩
  · exact ⟨_, rfl, sameRegisters_succeed s _, response_of_delivers_bytes8 (delivers_succeed s _)⟩

end Sys2Proof.Proofs
end

section
/-! PROOFS. ECB chunk by chunk: which block a chunk stands for, and the three facts of the controller that the statements of
42_mode_ecb.md rest on, for every block function. -/

namespace Sys2Proof.Machine

open Sys2Proof.Safety

/-- The first block of at most 8 bytes is their placement of R58. -/
theorem paddedBlock_zero_of_length_le (c : List Byte) (h8 : c.length ≤ 8) : paddedBlock c 0 = blockOf c := by
  have hbytes : (List.range 8).map (fun j => c.getD (8 * 0 + j) 0) = pad0 c := by
    apply List.ext_getElem (by simp [length_pad0 c h8])
    intro j _ _
    by_cases hj : j < c.length <;> simp [pad0, List.getElem_append, hj]
  rw [paddedBlock, hbytes, blockOf]

theorem paddedBlock_append_zero (c r : List Byte) (h : c.length = 8) : paddedBlock (c ++ r) 0 = blockOf c := by
  rw [← paddedBlock_zero_of_length_le c h.le, paddedBlock, paddedBlock]
  congr 1
  apply List.map_congr_left
  intro j hj
  have hlt := List.mem_range.mp hj
  exact List.getD_append _ _ _ _ (by omega)

theorem paddedBlock_append_succ (c r : List Byte) (h : c.length = 8) (i : Nat) :
    paddedBlock (c ++ r) (i + 1) = paddedBlock r i := by
  rw [paddedBlock, paddedBlock]
  congr 1
  apply List.map_congr_left
  intro j _
  rw [List.getD_append_right _ _ _ _ (by omega), show 8 * (i + 1) + j - c.length = 8 * i + j by omega]

/-- Byte `j` of what ECB answers for chunk `i` (R150). -/
theorem getElem?_ecb (f : Block → Block) (buffer : List Byte) (i j : Nat) (hi : i < chunkCount buffer.length) (hj : j < 8) :
    (ecb f buffer)[8 * i + j]? = some (byteOf (f (paddedBlock buffer i)) j) := by
  induction buffer using chunk_induction generalizing i with
  | nil => cases hi
  | short c h0 h8 =>
    obtain rfl : i = 0 := by rw [chunkCount] at hi; omega
    rw [ecb_short f c h0 h8.le, paddedBlock_zero_of_length_le c h8.le, Nat.mul_zero, Nat.zero_add, getElem?_bytes8 _ j hj]
  | full c r hc ih =>
    rw [ecb_append f c r hc]
    cases i with
    | zero =>
      rw [Nat.mul_zero, Nat.zero_add, List.getElem?_append_left (by simp [hj]), getElem?_bytes8 _ j hj,
        paddedBlock_append_zero c r hc]
    | succ i =>
      have hir : i < chunkCount r.length := by
        rw [chunkCount, List.length_append, hc] at hi
        rw [chunkCount]
        omega
      rw [List.getElem?_append_right (by rw [length_bytes8]; omega), length_bytes8,
        show 8 * (i + 1) + j - 8 = 8 * i + j by omega, ih i hir, paddedBlock_append_succ c r hc]

/-- Where `g` undoes `f`, ECB with `g` undoes ECB with `f`, up to the padding of the last chunk (R153). -/
theorem ecb_ecb_of_leftInverse {f g : Block → Block} (h : Function.LeftInverse g f) (buffer : List Byte) :
    ecb g (ecb f buffer) = buffer ++ List.replicate (8 * chunkCount buffer.length - buffer.length) 0 := by
  induction buffer using chunk_induction with
  | nil => simp [chunkCount]
  | short c h0 h8 =>
    have hone : chunkCount c.length = 1 := by rw [chunkCount]; omega
    rw [ecb_short f c h0 h8.le, ecb_short g _ (by simp) (by simp), blockOf_bytes8, h, bytes8_blockOf c h8.le, pad0, hone]
  | full c r hc ih =>
    have hpad : 8 * chunkCount (c ++ r).length - (c ++ r).length = 8 * chunkCount r.length - r.length := by
      rw [List.length_append, hc, chunkCount, chunkCount]
      omega
    rw [ecb_append f c r hc, ecb_append g _ _ (length_bytes8 _), blockOf_bytes8, h, blockOf_full c hc, bytes8_be64 c hc, ih,
      hpad, List.append_assoc]

/-- ECB treats what follows whole chunks as a buffer of its own (R154). -/
theorem ecb_append_of_length_mod (f : Block → Block) (p q : List Byte) (h : p.length % 8 = 0) :
    ecb f (p ++ q) = ecb f p ++ ecb f q := by
  induction p using chunk_induction with
  | nil => rfl
  | short c h0 h8 => omega
  | full c r hc ih =>
    have hr : r.length % 8 = 0 := by rw [List.length_append, hc] at h; omega
    rw [List.append_assoc, ecb_append f c _ hc, ecb_append f c r hc, ih hr, List.append_assoc]

/-- CIPHER.ENC.ECB always succeeds (R151). -/
theorem exec_cipherEncEcb (buffer : List Byte) (s : State) :
    exec (.cipherEncEcb buffer) s = .next (s.succeed (ecb (encrypt s.rk s.sbox) buffer)) := rfl

/-- CIPHER.DEC.ECB always succeeds (R152). -/
theorem exec_cipherDecEcb (buffer : List Byte) (s : State) :
    exec (.cipherDecEcb buffer) s = .next (s.succeed (ecb (decrypt s.rk s.sbox) buffer)) := rfl

end Sys2Proof.Machine
end

section
/-! PROOFS. The statements of 42_mode_ecb.md: O31 to O33. -/

namespace Sys2Proof.Proofs

open Sys2Proof.Machine Sys2Proof.Safety

/-- Settles O31: both commands answer ECB's output, whose bytes are known chunk by chunk. -/
theorem ecbAnswersEveryChunk : Obligations.EcbAnswersEveryChunk := by
  intro buffer s
  constructor
  · exact ⟨_, _, exec_cipherEncEcb buffer s, sameRegisters_succeed s _, delivers_succeed s _, length_ecb _ buffer,
      getElem?_ecb _ buffer⟩
  · exact ⟨_, _, exec_cipherDecEcb buffer s, sameRegisters_succeed s _, delivers_succeed s _, length_ecb _ buffer,
      getElem?_ecb _ buffer⟩

/-- Settles O32: the second command finds the first one's round keys and table, and decrypt undoes encrypt. -/
theorem ecbRoundTrip : Obligations.EcbRoundTrip := by
  intro p s
  have hundo : ecb (decrypt s.rk s.sbox) (ecb (encrypt s.rk s.sbox) p) =
      p ++ List.replicate (8 * chunkCount p.length - p.length) 0 :=
    ecb_ecb_of_leftInverse (decrypt_encrypt s.rk s.sbox) p
  refine ⟨_, _, _, exec_cipherEncEcb p s, delivers_succeed s _, exec_cipherDecEcb _ _, ?_⟩
  rw [State.succeed_rk, State.succeed_sbox, hundo]
  exact delivers_succeed _ _

/-- Settles O33: both engines apply the same block function, and ECB's output splits where the buffer does. -/
theorem ecbSplitsAtChunks : Obligations.EcbSplitsAtChunks := by
  intro p q s r hp hrk hsbox
  constructor
  · refine ⟨_, _, _, _, _, exec_cipherEncEcb p s, delivers_succeed s _, rfl, rfl, exec_cipherEncEcb q r,
      delivers_succeed r _, exec_cipherEncEcb (p ++ q) s, ?_⟩
    rw [hrk, hsbox, ← ecb_append_of_length_mod _ p q hp]
    exact delivers_succeed s _
  · refine ⟨_, _, _, _, _, exec_cipherDecEcb p s, delivers_succeed s _, rfl, rfl, exec_cipherDecEcb q r,
      delivers_succeed r _, exec_cipherDecEcb (p ++ q) s, ?_⟩
    rw [hrk, hsbox, ← ecb_append_of_length_mod _ p q hp]
    exact delivers_succeed s _

end Sys2Proof.Proofs
end

section
/-! PROOFS. CTR as a stream cipher: each byte of the buffer exclusive-ored with the keystream byte in its place (43_mode_ctr.md
R163), for every block function; and what the CTR and CFB commands do with and without an IV. -/

namespace Sys2Proof.Machine

open Sys2Proof.Safety

/-- Byte `k` of the keystream (R162, R163). -/
def ctrKeystreamByte (enc : Block → Block) (seed : Block) (k : Nat) : Byte :=
  byteOf (ctrKeystream enc seed (k / 8)) (k % 8)

theorem ctrKeystreamByte_eight_mul_add (enc : Block → Block) (seed : Block) (i j : Nat) (hj : j < 8) :
    ctrKeystreamByte enc seed (8 * i + j) = byteOf (ctrKeystream enc seed i) j := by
  rw [ctrKeystreamByte, show (8 * i + j) / 8 = i by omega, show (8 * i + j) % 8 = j by omega]

/-- The chunk of index `i` meets the keystream from byte `8 * i` on (R163). -/
theorem first_xor_blockOf_eq_mapIdx (enc : Block → Block) (seed : Block) (i : Nat) (c : List Byte) (h8 : c.length ≤ 8) :
    first c.length (bytes8 (ctrKeystream enc seed i ^^^ blockOf c)) =
      c.mapIdx fun j x => x ^^^ ctrKeystreamByte enc seed (8 * i + j) := by
  apply List.ext_getElem?
  intro j
  by_cases hj : j < c.length
  · rw [getElem?_first_xor_blockOf _ c h8 j hj, List.getElem?_mapIdx, List.getElem?_eq_getElem hj, Option.map_some,
      ctrKeystreamByte_eight_mul_add enc seed i j (by omega)]
  · rw [List.getElem?_eq_none (by simp; omega), List.getElem?_eq_none (by simp; omega)]

/-- The chunks of a buffer from chunk index `i` on, byte by byte. -/
theorem ctrChunks_chunks_eq_mapIdx (enc : Block → Block) (seed : Block) (i : Nat) (buffer : List Byte) :
    ctrChunks enc seed i (chunks buffer) = buffer.mapIdx fun k x => x ^^^ ctrKeystreamByte enc seed (8 * i + k) := by
  induction buffer using chunk_induction generalizing i with
  | nil => rfl
  | short c h0 h8 =>
    rw [chunks_short c h0 h8.le, ctrChunks_cons, ctrChunks_nil, List.append_nil, first_xor_blockOf_eq_mapIdx enc seed i c h8.le]
  | full c r hc ih =>
    have hplace (k : Nat) : 8 * (i + 1) + k = 8 * i + (k + c.length) := by omega
    have hrest := ih (i + 1)
    simp only [hplace] at hrest
    rw [chunks_append c r hc, ctrChunks_cons, hrest, first_xor_blockOf_eq_mapIdx enc seed i c hc.le, List.mapIdx_append]

/-- CTR exclusive-ors each byte with the keystream byte in its place. -/
theorem ctr_eq_mapIdx (enc : Block → Block) (seed : Block) (buffer : List Byte) :
    ctr enc seed buffer = buffer.mapIdx fun k x => x ^^^ ctrKeystreamByte enc seed k := by
  rw [ctr, ctrChunks_chunks_eq_mapIdx]
  simp

theorem getElem?_ctr (enc : Block → Block) (seed : Block) (buffer : List Byte) (k : Nat) (h : k < buffer.length) :
    (ctr enc seed buffer)[k]? = some (buffer[k] ^^^ ctrKeystreamByte enc seed k) := by
  rw [ctr_eq_mapIdx, List.getElem?_mapIdx, List.getElem?_eq_getElem h, Option.map_some]

/-- The same keystream byte, added twice, cancels (R166). -/
theorem ctr_ctr (enc : Block → Block) (seed : Block) (buffer : List Byte) : ctr enc seed (ctr enc seed buffer) = buffer := by
  rw [ctr_eq_mapIdx, ctr_eq_mapIdx, List.mapIdx_mapIdx]
  apply List.ext_getElem?
  intro k
  simp [Function.comp_def]

/-- What CTR makes of a byte does not depend on the bytes behind it. -/
theorem ctr_prefix_append (enc : Block → Block) (seed : Block) (p q : List Byte) :
    ctr enc seed p <+: ctr enc seed (p ++ q) := by
  rw [ctr_eq_mapIdx, ctr_eq_mapIdx, List.mapIdx_append]
  exact List.prefix_append _ _

/-- A block of the keystream by the number that it encrypts (R162). -/
theorem ctrKeystream_eq_ofNat (enc : Block → Block) (seed : Block) (i : Nat) :
    ctrKeystream enc seed i = enc (BitVec.ofNat 64 ((seed.toNat + i) % 2 ^ 64)) :=
  congrArg enc (BitVec.eq_of_toNat_eq (by simp))

theorem ctrCommand_of_iv_nil {s : State} (hiv : s.iv = []) (buffer : List Byte) :
    ctrCommand buffer s = s.raise .ivEmpty := by
  rw [ctrCommand, hiv]

theorem cfbCommand_of_iv_nil {s : State} (hiv : s.iv = []) (op : CipherOp) (buffer : List Byte) :
    cfbCommand op buffer s = s.raise .ivEmpty := by
  rw [cfbCommand, hiv]

/-- CIPHER.ENC.CTR with an IV. -/
theorem exec_cipherEncCtr_of_iv {s : State} {b : Block} {bs : List Block} (hiv : s.iv = b :: bs) (buffer : List Byte) :
    exec (.cipherEncCtr buffer) s =
      .next (s.succeed (ctr (encrypt s.rk s.sbox) (Config.ctrPrepare b bs) buffer)) := by
  show done (ctrCommand buffer s) = _
  rw [ctrCommand, hiv]
  rfl

/-- Both operations are the same CTR command (R165). -/
theorem exec_cipherDecCtr (buffer : List Byte) (s : State) :
    exec (.cipherDecCtr buffer) s = exec (.cipherEncCtr buffer) s := rfl

end Sys2Proof.Machine
end

section
/-! PROOFS. The statements of 43_mode_ctr.md: O34 to O38. -/

namespace Sys2Proof.Proofs

open Sys2Proof.Machine Sys2Proof.Safety

/-- Settles O35: both commands answer CTR's output, whose bytes are known. -/
theorem ctrAnswersEveryByte : Obligations.CtrAnswersEveryByte := by
  intro buffer s b bs hiv
  have hexec := exec_cipherEncCtr_of_iv hiv buffer
  refine ⟨_, _, hexec, (exec_cipherDecCtr buffer s).trans hexec, sameRegisters_succeed s _, delivers_succeed s _,
    length_ctr _ _ buffer, fun k h => ?_⟩
  rw [getElem?_ctr _ _ buffer k h, ctrKeystreamByte, ctrKeystream_eq_ofNat]

/-- Settles O34: each of the four commands looks at the IV before it looks at the buffer. -/
theorem ctrAndCfbNeedAnIv : Obligations.CtrAndCfbNeedAnIv := by
  intro buffer s hiv
  have hctr := congrArg done (ctrCommand_of_iv_nil hiv buffer)
  have hcfb (op : CipherOp) := congrArg done (cfbCommand_of_iv_nil hiv op buffer)
  exact ⟨hctr, hctr, hcfb .encrypt, hcfb .decrypt⟩

/-- Settles O37: the second command finds the first one's registers, and CTR undoes itself. -/
theorem ctrRoundTrip : Obligations.CtrRoundTrip := by
  intro p s hne
  obtain ⟨b, bs, hiv⟩ := List.exists_cons_of_ne_nil hne
  have hfirst := exec_cipherEncCtr_of_iv hiv p
  generalize hc : ctr (encrypt s.rk s.sbox) (Config.ctrPrepare b bs) p = c at hfirst
  have hsecond : exec (.cipherEncCtr c) (s.succeed c) = .next (s.succeed p) := by
    rw [exec_succeed, exec_cipherEncCtr_of_iv hiv, ← hc, ctr_ctr]
  exact ⟨_, _, c, hfirst, delivers_succeed s c, (exec_cipherDecCtr c _).trans hsecond, delivers_succeed s p, hsecond⟩

/-- Settles O38: CTR of the longer buffer begins with CTR of its prefix. -/
theorem ctrOutputOfPrefix : Obligations.CtrOutputOfPrefix := by
  intro p q s hne
  obtain ⟨b, bs, hiv⟩ := List.exists_cons_of_ne_nil hne
  obtain ⟨y, hy⟩ := ctr_prefix_append (encrypt s.rk s.sbox) (Config.ctrPrepare b bs) p q
  refine ⟨_, _, _, y, exec_cipherEncCtr_of_iv hiv p, delivers_succeed s _, exec_cipherEncCtr_of_iv hiv (p ++ q), ?_⟩
  rw [hy]
  exact delivers_succeed s _

/-- Settles O36, which is `exec_cipherDecCtr`. -/
theorem ctrDecryptIsEncrypt : Obligations.CtrDecryptIsEncrypt := exec_cipherDecCtr

end Sys2Proof.Proofs
end

section
/-! PROOFS. CFB byte by byte: the block that is encrypted for each chunk, and what the two commands do with an IV (44_mode_cfb.md
R170 to R176). -/

namespace Sys2Proof.Machine

open Sys2Proof.Safety

/-- The block that CFB encrypts for chunk `i`: one that the register starts with, then the ciphertext block as many chunks before
as the register is long (R172). -/
def cfbInput (start : List Block) (ciphertext : List Byte) (i : Nat) : Block :=
  if i < start.length then start.getD i 0 else paddedBlock ciphertext (i - start.length)

/-- The ciphertext of a CFB pass: its output when it encrypts, its input when it decrypts (R172). -/
def cfbCiphertext (enc : Block → Block) (op : CipherOp) (reg : ShiftReg) (buffer : List Byte) : List Byte :=
  if op = .encrypt then cfb enc op reg buffer else buffer

/-- The ciphertext block of a full chunk, which CFB pushes (R172). -/
def cfbPushed (enc : Block → Block) (op : CipherOp) (reg : ShiftReg) (c : List Byte) : Block :=
  if op = .encrypt then enc reg.front ^^^ blockOf c else blockOf c

/-- A full chunk in front is answered by the front of the register, and its ciphertext block is pushed (R173). -/
theorem cfb_append (enc : Block → Block) (op : CipherOp) (reg : ShiftReg) (c r : List Byte) (hc : c.length = 8) :
    cfb enc op reg (c ++ r) =
      bytes8 (enc reg.front ^^^ blockOf c) ++ cfb enc op (reg.popPush (cfbPushed enc op reg c)) r := by
  rw [cfb, chunks_append c r hc, cfbChunks_cons, first, List.take_of_length_le (by simp [hc])]
  rfl

theorem cfbCiphertext_append (enc : Block → Block) (op : CipherOp) (reg : ShiftReg) (c r : List Byte) (hc : c.length = 8) :
    cfbCiphertext enc op reg (c ++ r) = bytes8 (cfbPushed enc op reg c) ++
      cfbCiphertext enc op (reg.popPush (cfbPushed enc op reg c)) r := by
  by_cases hop : op = .encrypt
  · simp only [cfbCiphertext, cfbPushed, hop, if_true, cfb_append enc .encrypt reg c r hc]
  · simp only [cfbCiphertext, cfbPushed, hop, if_false, blockOf_full c hc, bytes8_be64 c hc]

/-- After a push the inputs are those of the register before it, one chunk on: the block pushed comes up when the register's own
blocks are used up. -/
theorem cfbInput_popPush (reg : ShiftReg) (b : Block) (ciphertext : List Byte) (i : Nat) :
    cfbInput (reg.popPush b).blocks ciphertext i = cfbInput reg.blocks (bytes8 b ++ ciphertext) (i + 1) := by
  have hlen : reg.blocks.length = reg.rest.length + 1 := rfl
  rw [cfbInput, cfbInput, reg.length_blocks_popPush, hlen]
  rcases Nat.lt_trichotomy i reg.rest.length with hi | rfl | hi
  · rw [if_pos (by omega), if_pos (by omega), reg.getD_blocks_popPush b i hi]
  · have hblocks : (reg.popPush b).blocks = reg.rest ++ [b] := reg.popPush_blocks b
    rw [if_pos (by omega), if_neg (by omega), hblocks, Nat.sub_self, paddedBlock_append_zero _ _ (length_bytes8 b),
      blockOf_bytes8]
    simp
  · obtain ⟨m, rfl⟩ := Nat.exists_eq_add_of_lt hi
    rw [if_neg (by omega), if_neg (by omega),
      show reg.rest.length + m + 1 + 1 - (reg.rest.length + 1) = m + 1 by omega,
      show reg.rest.length + m + 1 - (reg.rest.length + 1) = m by omega, paddedBlock_append_succ _ _ (length_bytes8 b)]

/-- A byte of CFB's output is the input byte exclusive-ored with its chunk's keystream (R173). -/
theorem getElem?_cfb (enc : Block → Block) (op : CipherOp) (reg : ShiftReg) (buffer : List Byte) (k : Nat)
    (h : k < buffer.length) : (cfb enc op reg buffer)[k]? = some (buffer[k] ^^^
      byteOf (enc (cfbInput reg.blocks (cfbCiphertext enc op reg buffer) (k / 8))) (k % 8)) := by
  induction buffer using chunk_induction generalizing reg k with
  | nil => cases h
  | short c h0 h8 =>
    have hreg : 0 < reg.blocks.length := Nat.succ_pos _
    rw [getElem?_cfb_within_register enc op reg c (by omega) k h, cfbInput, if_pos (by omega)]
  | full c r hc ih =>
    rw [cfb_append enc op reg c r hc]
    by_cases hk : k < 8
    · rw [List.getElem?_append_left (by simp [hk]), getElem?_bytes8 _ k hk, byteOf_xor, byteOf_blockOf c hc.le k (by omega),
        BitVec.xor_comm, List.getElem_append_left (by omega), Nat.div_eq_of_lt hk, Nat.mod_eq_of_lt hk]
      rfl
    · obtain ⟨m, rfl⟩ : ∃ m, k = m + 8 := ⟨k - 8, by omega⟩
      have hm : m < r.length := by rw [List.length_append, hc] at h; omega
      rw [List.getElem?_append_right (by simp), List.getElem_append_right (by omega), cfbCiphertext_append enc op reg c r hc,
        Nat.add_div_right m (by omega), Nat.add_mod_right, ← cfbInput_popPush]
      simpa [hc] using ih (reg.popPush (cfbPushed enc op reg c)) m hm

/-- Both passes see the same ciphertext, so the second adds the keystream of the first again and cancels it (R176). -/
theorem cfb_decrypt_cfb_encrypt (enc : Block → Block) (reg : ShiftReg) (p : List Byte) :
    cfb enc .decrypt reg (cfb enc .encrypt reg p) = p := by
  apply List.ext_getElem (by simp only [length_cfb])
  intro k hk hp
  have hc : k < (cfb enc .encrypt reg p).length := by rwa [length_cfb]
  have hdecrypted := getElem?_cfb enc .decrypt reg _ k hc
  have hencrypted := getElem?_cfb enc .encrypt reg p k hp
  have hsame : cfbCiphertext enc .decrypt reg (cfb enc .encrypt reg p) = cfbCiphertext enc .encrypt reg p := rfl
  rw [List.getElem?_eq_getElem hk, Option.some_inj] at hdecrypted
  rw [List.getElem?_eq_getElem hc, Option.some_inj] at hencrypted
  rw [hdecrypted, hsame, hencrypted, BitVec.xor_assoc, BitVec.xor_self, BitVec.xor_zero]

/-- A buffer no longer than the register meets only the blocks that the register starts with (R175). -/
theorem cfb_eq_of_length_le (enc : Block → Block) (op op' : CipherOp) (reg : ShiftReg) (buffer : List Byte)
    (hreg : buffer.length ≤ 8 * reg.blocks.length) : cfb enc op reg buffer = cfb enc op' reg buffer := by
  apply List.ext_getElem?
  intro k
  by_cases hk : k < buffer.length
  · rw [getElem?_cfb_within_register enc op reg buffer hreg k hk, getElem?_cfb_within_register enc op' reg buffer hreg k hk]
  · rw [List.getElem?_eq_none (by rw [length_cfb]; omega), List.getElem?_eq_none (by rw [length_cfb]; omega)]

/-- CIPHER.DEC.CFB with an IV. -/
theorem exec_cipherDecCfb_of_iv {s : State} {b : Block} {bs : List Block} (hiv : s.iv = b :: bs) (buffer : List Byte) :
    exec (.cipherDecCfb buffer) s = .next (s.succeed (cfb s.encryptBlock .decrypt ⟨b, bs⟩ buffer)) := by
  show done (cfbCommand .decrypt buffer s) = _
  rw [cfbCommand, hiv]
  rfl

end Sys2Proof.Machine
end

section
/-! PROOFS. The statements of 44_mode_cfb.md: O39 to O41. -/

namespace Sys2Proof.Proofs

open Sys2Proof.Machine Sys2Proof.Safety

/-- Settles O39: both commands answer CFB's output, whose bytes are known. -/
theorem cfbAnswersEveryByte : Obligations.CfbAnswersEveryByte := by
  intro buffer s hne
  obtain ⟨b, bs, hiv⟩ := List.exists_cons_of_ne_nil hne
  have hbyte (op : CipherOp) := getElem?_cfb s.encryptBlock op ⟨b, bs⟩ buffer
  have hstart : (ShiftReg.mk b bs).blocks = s.iv := hiv.symm
  simp only [hstart] at hbyte
  constructor
  · exact ⟨_, _, exec_cipherEncCfb_of_iv hiv buffer, sameRegisters_succeed s _, delivers_succeed s _,
      length_cfb _ _ _ buffer, hbyte .encrypt⟩
  · exact ⟨_, _, exec_cipherDecCfb_of_iv hiv buffer, sameRegisters_succeed s _, delivers_succeed s _,
      length_cfb _ _ _ buffer, hbyte .decrypt⟩

/-- Settles O40: the second command finds the first one's registers, and CFB decryption undoes CFB encryption. -/
theorem cfbRoundTrip : Obligations.CfbRoundTrip := by
  intro p s hne
  obtain ⟨b, bs, hiv⟩ := List.exists_cons_of_ne_nil hne
  refine ⟨_, _, _, exec_cipherEncCfb_of_iv hiv p, rfl, delivers_succeed s _,
    (exec_succeed _ s _).trans (exec_cipherDecCfb_of_iv hiv _), ?_⟩
  rw [cfb_decrypt_cfb_encrypt]
  exact delivers_succeed s p

/-- Settles O41: while the register still holds blocks of the IV, what is pushed behind them does not matter. -/
theorem cfbCommandsCoincideOnShortBuffers : Obligations.CfbCommandsCoincideOnShortBuffers := by
  intro buffer s hne hlen
  obtain ⟨b, bs, hiv⟩ := List.exists_cons_of_ne_nil hne
  rw [State.ivLen, hiv] at hlen
  rw [exec_cipherDecCfb_of_iv hiv, exec_cipherEncCfb_of_iv hiv,
    cfb_eq_of_length_le s.encryptBlock .decrypt .encrypt ⟨b, bs⟩ buffer hlen]

end Sys2Proof.Proofs
end

section
/-! PROOFS. MAC: the doubling of a subkey as arithmetic, and the tag of a buffer given as its full chunks and its last chunk
(45_mode_mac.md R181 to R187). -/

namespace Sys2Proof.Machine

open Sys2Proof.Safety

/-- The bit that doubling tests, as a bound on the number (R181). -/
theorem getLsbD_63_iff (x : Block) : x.getLsbD 63 = true ↔ 2 ^ 63 ≤ x.toNat := by
  have hmsb : x.getLsbD 63 = x.msb := (BitVec.msb_eq_getLsbD_last x).symm
  rw [hmsb, BitVec.msb_eq_decide, decide_eq_true_iff]

theorem dbl_of_lt {x : Block} (h : x.toNat < 2 ^ 63) : dbl x = x <<< 1 :=
  if_neg (by rw [getLsbD_63_iff]; omega)

theorem dbl_of_le {x : Block} (h : 2 ^ 63 ≤ x.toNat) : dbl x = (x <<< 1) ^^^ 0x1B#64 :=
  if_pos ((getLsbD_63_iff x).mpr h)

theorem toNat_shiftLeft_one (x : Block) : (x <<< 1).toNat = 2 * x.toNat % 2 ^ 64 := by
  rw [BitVec.toNat_shiftLeft, Nat.shiftLeft_eq, pow_one, Nat.mul_comm]

/-- Full chunks in front are the first chunks (R12). -/
theorem chunks_flatten_append (init : List (List Byte)) (r : List Byte) (hfull : ∀ c ∈ init, c.length = 8) :
    chunks (init.flatten ++ r) = init ++ chunks r := by
  induction init with
  | nil => rfl
  | cons c cs ih =>
    obtain ⟨hc, hcs⟩ := List.forall_mem_cons.mp hfull
    rw [List.flatten_cons, List.append_assoc, chunks_append c _ hc, ih hcs, List.cons_append]

/-- The feedback after full chunks (R184). -/
def macFeedback (enc : Block → Block) (fb : Block) (init : List (List Byte)) : Block :=
  init.foldl (fun fb c => enc (be64 c ^^^ fb)) fb

/-- The chaining reaches the last chunk with the feedback of the chunks before it (R184). -/
theorem macChain_eq_of_append (enc : Block → Block) (kn fb : Block) (init : List (List Byte)) (last c : List Byte)
    (cs : List (List Byte)) (h : init ++ [last] = c :: cs) :
    macChain enc kn fb c cs = enc (macLastBlock last ^^^ macFeedback enc fb init ^^^ kn) := by
  induction init generalizing fb c cs with
  | nil => cases h; rfl
  | cons d ds ih =>
    obtain ⟨c', cs', hrest⟩ := List.exists_cons_of_ne_nil (List.append_ne_nil_of_right_ne_nil ds (List.cons_ne_nil last []))
    rw [List.cons_append, hrest] at h
    cases h
    exact ih (enc (be64 d ^^^ fb)) c' cs' hrest

/-- A buffer's length is a multiple of 8 exactly when its last chunk is full, so a padded chunk goes with K2 (R183, R184). -/
theorem macSubkey_of_last (enc : Block → Block) (init : List (List Byte)) (last : List Byte)
    (hfull : ∀ c ∈ init, c.length = 8) (h0 : 0 < last.length) (h8 : last.length ≤ 8) :
    macSubkey enc (init.flatten ++ last).length = if last.length = 8 then dbl (enc 0) else dbl (dbl (enc 0)) := by
  have hinit : (init.flatten).length = init.length * 8 := by
    rw [List.length_flatten, List.map_congr_left hfull, List.map_const', List.sum_replicate, smul_eq_mul]
  have hlen : (init.flatten ++ last).length % 8 = 0 ↔ last.length = 8 := by
    rw [List.length_append, hinit]; omega
  simp only [macSubkey, hlen]

/-- CIPHER.MAC.MAC on full chunks and a last chunk of 1 to 8 bytes (R186). -/
theorem exec_cipherMacMac_flatten_append (init : List (List Byte)) (last : List Byte) (s : State)
    (hfull : ∀ c ∈ init, c.length = 8) (h0 : 0 < last.length) (h8 : last.length ≤ 8) :
    exec (.cipherMacMac (init.flatten ++ last)) s = .next (s.succeed (macTag (s.encryptBlock
      (macLastBlock last ^^^ macFeedback s.encryptBlock 0 init ^^^
        macSubkey s.encryptBlock (init.flatten ++ last).length)))) := by
  have happend : chunks (init.flatten ++ last) = init ++ [last] := by
    rw [chunks_flatten_append init last hfull, chunks_short last h0 h8]
  obtain ⟨c, cs, hchunks⟩ := List.exists_cons_of_ne_nil (List.append_ne_nil_of_right_ne_nil init (List.cons_ne_nil last []))
  show done (macCommand (init.flatten ++ last) s) = _
  rw [macCommand, happend, hchunks]
  exact congrArg (fun fb => done (s.succeed (macTag fb))) (macChain_eq_of_append _ _ 0 init last c cs hchunks)

theorem toNat_hi32 (v : Block) : (hi32 v).toNat = v.toNat / 2 ^ 32 := by
  have hlt := v.isLt
  rw [hi32, BitVec.extractLsb'_toNat, Nat.shiftRight_eq_div_pow, Nat.mod_eq_of_lt (by omega)]

/-- The tag's bytes are the first four of the block (R185). -/
theorem getElem?_macTag (v : Block) (j : Nat) (h : j < 4) : (macTag v)[j]? = some (byteOf v j) := by
  have hplace : 7 - j = 4 + (4 - 1 - j) := by omega
  rw [macTag, bytes4, getElem?_beBytes 4 _ j h, toNat_hi32, byteOf, BitVec.extractLsb', Nat.shiftRight_eq_div_pow, pow_mul,
    hplace, pow_add, Nat.div_div_eq_div_mul]
  rfl

/-- A response that delivers a tag, field by field (R87). -/
theorem response_of_delivers_macTag {t : State} {v : Block} (h : Delivers t (macTag v)) :
    t.status = 0 ∧ t.olen = 4 ∧ (∀ j, j < 4 → t.dout.readByte j = some (byteOf v j)) ∧
      ∀ j, 4 ≤ j → t.dout.readByte j = none := by
  obtain ⟨hstatus, holen, hbytes⟩ := h
  refine ⟨hstatus, ?_, fun j hj => ?_, fun j hj => ?_⟩
  · rw [holen, length_macTag, olenOf_of_lt (by decide)]
    rfl
  · rw [hbytes, getElem?_macTag v j hj]
  · rw [hbytes, List.getElem?_eq_none (by rwa [length_macTag])]

/-- What a failing command answers is its error and nothing else. -/
theorem fails_raise (s : State) (e : ErrorKind) : Fails (s.raise e) e := ⟨rfl, rfl, fun _ => rfl⟩

/-- CIPHER.MAC.MAC on no byte (R187). -/
theorem exec_cipherMacMac_nil (s : State) :
    exec (.cipherMacMac []) s = .next (macEmptyResponse (Config.macEmpty s.rk s.sbox) s) := rfl

end Sys2Proof.Machine
end

section
/-! PROOFS. The statements of 45_mode_mac.md: O42 to O44. -/

namespace Sys2Proof.Proofs

open Sys2Proof.Machine Sys2Proof.Safety

/-- Settles O42, by bit 63: where it is set, the shift drops 2^64 once. -/
theorem doublingOfASubkey : Obligations.DoublingOfASubkey := by
  intro x
  have hx := x.isLt
  by_cases hlow : x.toNat < 2 ^ 63
  · rw [if_pos hlow, dbl_of_lt hlow, toNat_shiftLeft_one, Nat.mod_eq_of_lt (by omega)]
  · have hdrop : 2 * x.toNat % 2 ^ 64 = 2 * x.toNat - 2 ^ 64 := by omega
    rw [if_neg hlow, dbl_of_le (by omega), BitVec.toNat_xor, toNat_shiftLeft_one, hdrop]
    rfl

/-- Settles O43: the command ends with the tag of the block that the chaining reaches, under the subkey that goes with the last
chunk. -/
theorem macAnswersTheTag : Obligations.MacAnswersTheTag := by
  intro init last s hfull h0 h8
  have hexec := exec_cipherMacMac_flatten_append init last s hfull h0 h8
  rw [macSubkey_of_last _ init last hfull h0 h8] at hexec
  exact ⟨_, hexec, sameRegisters_succeed s _, response_of_delivers_macTag (delivers_succeed s _)⟩

/-- Settles O44, by what the open outcome is. -/
theorem macOfEmptyBufferCompletes : Obligations.MacOfEmptyBufferCompletes := by
  intro s
  rw [exec_cipherMacMac_nil]
  cases Config.macEmpty s.rk s.sbox with
  | tag t => exact ⟨_, rfl, sameRegisters_succeed s _, .inl ⟨t, delivers_succeed s _⟩⟩
  | illegalCommand => exact ⟨_, rfl, sameRegisters_raise s _, .inr (fails_raise s _)⟩

end Sys2Proof.Proofs
end

section
/-! PROOFS. Mode dispatch: what a CIPHER command does on either side of the compatibility matrix (46_mode_dispatch.md R195 to
R203). -/

namespace Sys2Proof.Machine

/-- The matrix in words: MessageAuthentication goes with MAC and with nothing else (R196). -/
theorem pairingValid_iff (op : CipherOp) (mode : CipherMode) :
    pairingValid op mode = true ↔
      (mode = .mac ∧ op = .messageAuthentication) ∨ (mode ≠ .mac ∧ op ≠ .messageAuthentication) := by
  cases op <;> cases mode <;> decide

/-- A pairing that the matrix calls invalid raises ERR_INVALID_OP_MODE before anything is read (R197). -/
theorem exec_cipherInstr_of_not_pairingValid {op : CipherOp} {mode : CipherMode} (h : pairingValid op mode = false)
    (buffer : List Byte) (s : State) : exec (cipherInstr op mode buffer) s = .next (s.raise .invalidOpMode) := by
  match op, mode, h with
  | .encrypt, .mac, _ | .decrypt, .mac, _ => rfl
  | .messageAuthentication, .ecb, _ | .messageAuthentication, .ctr, _ | .messageAuthentication, .cfb, _ => rfl

/-- Everything CIPHER.MAC.MAC can do, with its one error named (R187). -/
theorem macCommand_illegalCommand_or_succeed (buffer : List Byte) (s : State) :
    macCommand buffer s = s.raise .illegalCommand ∨ ∃ out, macCommand buffer s = s.succeed out := by
  unfold macCommand macEmptyResponse
  cases chunks buffer with
  | cons c cs => exact .inr ⟨_, rfl⟩
  | nil =>
    cases Config.macEmpty s.rk s.sbox with
    | tag t => exact .inr ⟨_, rfl⟩
    | illegalCommand => exact .inl rfl

/-- Everything a CIPHER command of a valid pairing can do: its controller's error, or an output (R195). -/
theorem exec_cipherInstr_of_pairingValid {op : CipherOp} {mode : CipherMode} (h : pairingValid op mode = true)
    (buffer : List Byte) (s : State) :
    ∃ t, exec (cipherInstr op mode buffer) s = .next t ∧
      (t = s.raise .ivEmpty ∨ t = s.raise .illegalCommand ∨ ∃ out, t = s.succeed out) := by
  match op, mode, h with
  | .encrypt, .ecb, _ | .decrypt, .ecb, _ => exact ⟨_, rfl, .inr (.inr ⟨_, rfl⟩)⟩
  | .encrypt, .ctr, _ | .decrypt, .ctr, _ => exact ⟨_, rfl, (ctrCommand_cases buffer s).imp_right .inr⟩
  | .encrypt, .cfb, _ | .decrypt, .cfb, _ => exact ⟨_, rfl, (cfbCommand_cases _ buffer s).imp_right .inr⟩
  | .messageAuthentication, .mac, _ => exact ⟨_, rfl, .inr (macCommand_illegalCommand_or_succeed buffer s)⟩

/-- ERR_INVALID_OP_MODE is no valid pairing's error (R213). -/
theorem exec_cipherInstr_status_ne_two {op : CipherOp} {mode : CipherMode} (h : pairingValid op mode = true)
    (buffer : List Byte) (s : State) : ∃ t, exec (cipherInstr op mode buffer) s = .next t ∧ t.status ≠ 2 := by
  obtain ⟨t, hexec, hresult⟩ := exec_cipherInstr_of_pairingValid h buffer s
  refine ⟨t, hexec, ?_⟩
  rcases hresult with rfl | rfl | ⟨out, rfl⟩
  · exact (by decide : errorCode .ivEmpty ≠ 2)
  · exact (by decide : errorCode .illegalCommand ≠ 2)
  · exact (by decide : statusOk ≠ 2)

end Sys2Proof.Machine
end

section
/-! PROOFS. The statements of 46_mode_dispatch.md: O46, O47. -/

namespace Sys2Proof.Proofs

open Sys2Proof.Machine

/-- Settles O47, on either side of the matrix: an invalid pairing raises the error, a valid one has no way to. -/
theorem matrixDecidesInvalidPairings : Obligations.MatrixDecidesInvalidPairings := by
  intro op mode buffer s
  rw [← pairingValid_iff]
  cases h : pairingValid op mode with
  | false => exact ⟨_, exec_cipherInstr_of_not_pairingValid h buffer s, iff_of_true rfl Bool.false_ne_true⟩
  | true =>
    obtain ⟨t, hexec, hstatus⟩ := exec_cipherInstr_status_ne_two h buffer s
    exact ⟨t, hexec, iff_of_false hstatus (not_not_intro rfl)⟩

/-- Settles O46: the matrix calls each of the five pairings invalid. -/
theorem invalidPairingsAlwaysFail : Obligations.InvalidPairingsAlwaysFail := by
  intro buffer s
  have hraise op mode (h : pairingValid op mode = false) := exec_cipherInstr_of_not_pairingValid h buffer s
  exact ⟨hraise .messageAuthentication .ecb rfl, hraise .messageAuthentication .ctr rfl,
    hraise .messageAuthentication .cfb rfl, hraise .encrypt .mac rfl, hraise .decrypt .mac rfl⟩

end Sys2Proof.Proofs
end

section
/-! PROOFS. Failing, going on and stopping: which error a command raises in a state and what the error leaves (60_exceptions.md R211
to R220), the idle and the reset step (R226, R240), and why a formed host's next step always answers a state (R225). -/

namespace Sys2Proof.Machine

open Sys2Proof.Safety

theorem errorCode_injective : Function.Injective errorCode := by
  intro e e'
  cases e <;> cases e' <;> decide

/-- A command that answers a STATUS other than OK has raised an error: the other results end with OK (R216). -/
theorem CommandResult.eq_raise {s t : State} (h : CommandResult s t) (hstatus : t.status ≠ 0) :
    ∃ e, t = s.raise e := by
  rcases h with herror | ⟨out, rfl⟩ | ⟨key, rfl⟩ | ⟨table, rfl⟩ | ⟨blocks, -, rfl⟩
  · exact herror
  all_goals exact absurd rfl hstatus

/-- When a command raises an error of each kind (R212 to R215, R217, R219). -/
def RaisedBy (i : Instr) (s : State) : ErrorKind → Prop
  | .keyLength => ∃ bytes, i = .setkeyb bytes ∧ bytes.length ≠ 32
  | .invalidOpMode => ∃ buffer, i = .cipherMacEcb buffer ∨ i = .cipherMacCtr buffer ∨ i = .cipherMacCfb buffer ∨
      i = .cipherEncMac buffer ∨ i = .cipherDecMac buffer
  | .ivEmpty => s.iv = [] ∧ ∃ buffer, i = .cipherEncCtr buffer ∨ i = .cipherDecCtr buffer ∨
      i = .cipherEncCfb buffer ∨ i = .cipherDecCfb buffer
  | .illegalCommand => (∃ blocks, i = .setiv blocks ∧ ¬DepthAdmits s blocks.length) ∨
      (i = .cipherMacMac [] ∧ Config.macEmpty s.rk s.sbox = .illegalCommand)
  | .sboxInvalid => s.params.sboxValidate = true ∧ ∃ table, i = .setsbox table ∧ ¬SubTablesArePermutations table

/-- CIPHER.MAC.MAC on at least one byte succeeds (R186). -/
theorem exec_cipherMacMac_of_ne_nil {buffer : List Byte} (h : buffer ≠ []) (s : State) :
    ∃ out, exec (.cipherMacMac buffer) s = .next (s.succeed out) := by
  obtain ⟨c, cs, hchunks⟩ := List.exists_cons_of_ne_nil (mt (chunks_eq_nil_iff buffer).mp h)
  refine ⟨macTag (macChain s.encryptBlock (macSubkey s.encryptBlock buffer.length) 0 c cs), congrArg done ?_⟩
  rw [macCommand, hchunks]

/-- Under the condition of an error the command raises it. -/
theorem exec_of_raisedBy {i : Instr} {s : State} {e : ErrorKind} (h : RaisedBy i s e) :
    exec i s = .next (s.raise e) := by
  cases e with
  | keyLength =>
    obtain ⟨bytes, rfl, hlen⟩ := h
    exact exec_setkeyb_of_length_ne hlen s
  | invalidOpMode =>
    obtain ⟨buffer, rfl | rfl | rfl | rfl | rfl⟩ := h <;> rfl
  | ivEmpty =>
    obtain ⟨hiv, buffer, rfl | rfl | rfl | rfl⟩ := h
    · exact congrArg done (ctrCommand_of_iv_nil hiv buffer)
    · exact congrArg done (ctrCommand_of_iv_nil hiv buffer)
    · exact congrArg done (cfbCommand_of_iv_nil hiv .encrypt buffer)
    · exact congrArg done (cfbCommand_of_iv_nil hiv .decrypt buffer)
  | illegalCommand =>
    obtain ⟨blocks, rfl, hdepth⟩ | ⟨rfl, hmac⟩ := h
    · exact exec_setiv_of_not_depthAdmits hdepth
    · rw [exec_cipherMacMac_nil, hmac]
      rfl
  | sboxInvalid =>
    obtain ⟨hvalidate, table, rfl, htable⟩ := h
    exact exec_setsbox_of_rejected hvalidate htable

/-- Off the conditions of all errors the command succeeds. -/
theorem raisedBy_or_exec_succeeds (i : Instr) (s : State) :
    (∃ e, RaisedBy i s e) ∨ ∃ t, exec i s = .next t ∧ t.status = 0 := by
  cases i with
  | setkey _ | selsboxA | selsboxB | encblk _ | decblk _ | cipherEncEcb _ | cipherDecEcb _ => exact .inr ⟨_, rfl, rfl⟩
  | setkeyb bytes =>
    by_cases hlen : bytes.length = 32
    · exact .inr ⟨_, exec_setkeyb_of_length hlen s, rfl⟩
    · exact .inl ⟨.keyLength, bytes, rfl, hlen⟩
  | setsbox table =>
    by_cases hadmitted : s.params.sboxValidate = false ∨ SubTablesArePermutations table
    · exact .inr ⟨_, exec_setsbox_of_admitted hadmitted, rfl⟩
    · obtain ⟨hvalidate, htable⟩ := not_or.mp hadmitted
      exact .inl ⟨.sboxInvalid, Bool.eq_true_of_not_eq_false hvalidate, table, rfl, htable⟩
  | setiv blocks =>
    by_cases hdepth : DepthAdmits s blocks.length
    · exact .inr ⟨_, exec_setiv_of_depthAdmits hdepth, rfl⟩
    · exact .inl ⟨.illegalCommand, .inl ⟨blocks, rfl, hdepth⟩⟩
  | cipherMacEcb buffer | cipherMacCtr buffer | cipherMacCfb buffer | cipherEncMac buffer | cipherDecMac buffer =>
    exact .inl ⟨.invalidOpMode, buffer, by simp⟩
  | cipherEncCtr buffer | cipherDecCtr buffer =>
    cases hiv : s.iv with
    | nil => exact .inl ⟨.ivEmpty, hiv, buffer, by simp⟩
    | cons b bs => exact .inr ⟨_, exec_cipherEncCtr_of_iv hiv buffer, rfl⟩
  | cipherEncCfb buffer =>
    cases hiv : s.iv with
    | nil => exact .inl ⟨.ivEmpty, hiv, buffer, by simp⟩
    | cons b bs => exact .inr ⟨_, exec_cipherEncCfb_of_iv hiv buffer, rfl⟩
  | cipherDecCfb buffer =>
    cases hiv : s.iv with
    | nil => exact .inl ⟨.ivEmpty, hiv, buffer, by simp⟩
    | cons b bs => exact .inr ⟨_, exec_cipherDecCfb_of_iv hiv buffer, rfl⟩
  | cipherMacMac buffer =>
    by_cases hbuffer : buffer = []
    · subst hbuffer
      rw [exec_cipherMacMac_nil]
      cases hmac : Config.macEmpty s.rk s.sbox with
      | tag tag => exact .inr ⟨_, rfl, rfl⟩
      | illegalCommand => exact .inl ⟨.illegalCommand, .inr ⟨rfl, hmac⟩⟩
    · obtain ⟨out, hexec⟩ := exec_cipherMacMac_of_ne_nil hbuffer s
      exact .inr ⟨_, hexec, rfl⟩

/-- A command's STATUS is an error's code exactly under the condition of that error. -/
theorem status_eq_errorCode_iff {i : Instr} {s t : State} (h : exec i s = .next t) (e : ErrorKind) :
    t.status = errorCode e ↔ RaisedBy i s e := by
  constructor
  · intro hstatus
    rcases raisedBy_or_exec_succeeds i s with ⟨e', hraised⟩ | ⟨u, hexec, hok⟩
    · cases h.symm.trans (exec_of_raisedBy hraised)
      exact errorCode_injective hstatus ▸ hraised
    · cases h.symm.trans hexec
      exact absurd (hstatus.symm.trans hok) (errorCode_ne_zero e)
  · intro hraised
    cases h.symm.trans (exec_of_raisedBy hraised)
    rfl

theorem step_of_idle {s : State} (h : s.inbox = []) : step s = .next s := by
  rw [step, h]

theorem step_of_reset {s : State} {rest : List Request} (h : s.inbox = .reset :: rest) :
    step s = .next (resetEvent s rest) := by
  rw [step, h]

/-- Every command answers a next state (R225). -/
theorem exec_completes (i : Instr) (s : State) : ∃ t, exec i s = .next t := by
  cases i <;> exact ⟨_, rfl⟩

/-- A step takes the first request off and leaves the others waiting (R62). -/
theorem inbox_of_step {s t : State} (h : step s = .next t) : t.inbox = s.inbox.tail := by
  rcases step_cases s t h with ⟨hnext, rfl⟩ | ⟨rest, hnext, rfl⟩ | ⟨c, rest, hnext, hresult⟩
  · simp [hnext]
  · simp [hnext, resetEvent]
  · obtain ⟨hinbox, -, -⟩ := hresult.frame
    simp [hnext, hinbox]

/-- A formed request never stops the engine: its transaction is read as a command, which completes, or is rejected with an error. -/
theorem step_completes {s : State} (hs : HostFormed s) : ∃ t, step s = .next t := by
  cases hnext : s.inbox with
  | nil => exact ⟨s, step_of_idle hnext⟩
  | cons r rest =>
    have hformed : requestFormed s.params r = true := hs r (by simp [hnext])
    cases r with
    | reset => exact ⟨_, step_of_reset hnext⟩
    | command c =>
      simp only [requestFormed, withinCapacity, Bool.and_eq_true, decide_eq_true_eq, Option.isSome_iff_exists] at hformed
      obtain ⟨hlen, din, hdin⟩ := hformed
      by_cases hdecodes : ∃ i, decode c.cmd din = .instr i
      · obtain ⟨i, hi⟩ := hdecodes
        rw [step_of_fetch_instr hnext (fetch_of_decode hlen hdin hi)]
        exact exec_completes i _
      · exact ⟨_, step_of_not_instr hnext hlen hdin hdecodes⟩

/-- What is still to come stays formed: a step presents nothing new. -/
theorem hostFormed_of_step {s t : State} (h : step s = .next t) (hs : HostFormed s) : HostFormed t := by
  intro r hr
  rw [inbox_of_step h] at hr
  rw [Proofs.noStepChangesTheParameters s t h]
  exact hs r (List.mem_of_mem_tail hr)

/-- A run goes on from the state that its first step answers. -/
theorem run_succ_of_step {M : Host.Core} {s t : M.State} (h : M.step s = .next t) (k : Nat) :
    M.run (k + 1) s = M.run k t := by
  rw [Host.Core.run, h]

end Sys2Proof.Machine
end

section
/-! PROOFS. The statements of 60_exceptions.md: O14, O15, O48, O51, O53. -/

namespace Sys2Proof.Proofs

open Sys2Proof.Machine Sys2Proof.Safety

/-- Settles O14, by induction on the number of steps: the next step answers a state, whose host is again formed. -/
theorem formedHostNeverStopsTheEngine : Obligations.FormedHostNeverStopsTheEngine := by
  intro k
  induction k with
  | zero => exact fun s _ => ⟨s, rfl⟩
  | succ k ih =>
    intro s hs
    obtain ⟨t, hstep⟩ := step_completes hs
    rw [run_succ_of_step (M := Sys2Proof.core) hstep]
    exact ih t (hostFormed_of_step hstep hs)

/-- Settles O48: each clause is `status_eq_errorCode_iff` at one kind of error. -/
theorem eachErrorHasItsCommand : Obligations.EachErrorHasItsCommand := by
  intro i s t h
  have hiff := status_eq_errorCode_iff h
  exact ⟨hiff .keyLength, hiff .invalidOpMode, hiff .ivEmpty, hiff .illegalCommand, hiff .sboxInvalid⟩

/-- Settles O51: a command that fails has raised an error, which writes the response alone. -/
theorem failureChangesOnlyStatus : Obligations.FailureChangesOnlyStatus := by
  intro i s t h hstatus
  obtain ⟨e, rfl⟩ := (exec_cases i s t h).eq_raise hstatus
  rfl

/-- Settles O53: the error leaves every register that the next command reads. -/
theorem failedCommandLeavesNoTrace : Obligations.FailedCommandLeavesNoTrace := by
  intro i j s t h hstatus
  obtain ⟨e, rfl⟩ := (exec_cases i s t h).eq_raise hstatus
  exact exec_eq_of_sameRegisters j (sameRegisters_raise s e)

/-- Settles O15: a reset event answers the state after reset with the same parameters and the requests still to come. -/
theorem idleAndResetSteps : Obligations.IdleAndResetSteps :=
  ⟨fun _ hnext => step_of_idle hnext, fun _ _ hnext =>
    ⟨_, step_of_reset hnext, rfl, rfl, rfl, rfl, rfl, rfl, rfl, rfl, rfl⟩⟩

end Sys2Proof.Proofs
end

section
/-! PROOFS. The set-up commands write different registers, so their writes commute (40_key_schedule_and_config.md R113, R116,
R117). -/

namespace Sys2Proof.Machine

open Sys2Proof.Safety Sys2Proof.Proofs

theorem State.writeKey_writeIv (s : State) (key : KeyWords) (blocks : List Block) :
    (s.writeIv blocks).writeKey key = (s.writeKey key).writeIv blocks := rfl

theorem State.writeKey_writeSbox (s : State) (key : KeyWords) (table : SboxTable) :
    (s.writeSbox table).writeKey key = (s.writeKey key).writeSbox table := rfl

theorem State.writeIv_writeSbox (s : State) (blocks : List Block) (table : SboxTable) :
    (s.writeSbox table).writeIv blocks = (s.writeIv blocks).writeSbox table := rfl

/-- SETKEY after a completed command (R113). -/
theorem exec_setkey_succeed (key : KeyWords) (s : State) (out : List Byte) :
    exec (.setkey key) (s.succeed out) = .next ((s.writeKey key).succeed []) := exec_succeed _ s out

/-- SELSBOX.A after a completed command (R116). -/
theorem exec_selsboxA_succeed (s : State) (out : List Byte) :
    exec .selsboxA (s.succeed out) = .next ((s.writeSbox sboxPresetA).succeed []) := exec_succeed _ s out

/-- SETIV within the depth, after a completed command (R117). -/
theorem exec_setiv_succeed_of_depthAdmits {blocks : List Block} {s : State} (h : DepthAdmits s blocks.length)
    (out : List Byte) : exec (.setiv blocks) (s.succeed out) = .next ((s.writeIv blocks).succeed []) := by
  rw [exec_succeed, exec_setiv_of_depthAdmits h]

/-- The depth that an IV has to fit is a parameter, so a state with the same parameters admits it too. -/
theorem depthAdmits_of_params_eq {s t : State} {n : Nat} (h : DepthAdmits s n) (hparams : t.params = s.params) :
    DepthAdmits t n := by
  rwa [DepthAdmits, hparams]

end Sys2Proof.Machine
end

section
/-! PROOFS. The statement of 70_reset_and_hazards.md: O22. -/

namespace Sys2Proof.Proofs

open Sys2Proof.Machine Sys2Proof.Safety

/-- Settles O22: each command goes on from the registers the one before it wrote, and the writes commute. -/
theorem setUpCommandsCommute : Obligations.SetUpCommandsCommute := by
  intro key blocks s hdepth
  have hiv (t : State) (hparams : t.params = s.params) :
      exec (.setiv blocks) (t.succeed []) = .next ((t.writeIv blocks).succeed []) :=
    exec_setiv_succeed_of_depthAdmits (depthAdmits_of_params_eq hdepth hparams) []
  refine ⟨_, _, _, _, _, _, _, _, _, rfl, exec_setiv_of_depthAdmits hdepth, rfl,
    hiv (s.writeKey key) rfl, ?keyAfterIv,
    exec_selsboxA_succeed (s.writeKey key) [], ?keyAfterSbox,
    exec_selsboxA_succeed (s.writeIv blocks) [], ?ivAfterSbox,
    exec_selsboxA_succeed ((s.writeKey key).writeIv blocks) [],
    hiv ((s.writeKey key).writeSbox sboxPresetA) rfl,
    exec_setkey_succeed key ((s.writeIv blocks).writeSbox sboxPresetA) [], ?sboxThenIv, ?ivThenKey⟩
  case keyAfterIv => rw [exec_setkey_succeed, State.writeKey_writeIv]
  case keyAfterSbox => rw [exec_setkey_succeed, State.writeKey_writeSbox]
  case ivAfterSbox => rw [hiv (s.writeSbox sboxPresetA) rfl, State.writeIv_writeSbox]
  case sboxThenIv => rw [State.writeIv_writeSbox]
  case ivThenKey => rw [State.writeIv_writeSbox, State.writeKey_writeSbox, State.writeKey_writeIv]

end Sys2Proof.Proofs
end
